-- ==== Sys2Proof/Word.lean ====
section
/-! DEFINITION. The two word types of the PPE: a 32-bit register word (`00_scope.md` rule R5, `XLEN` = 32) and a
byte of buffer memory (`00_scope.md` rule R7). -/

namespace Sys2Proof

/-- A register value or a command word: `XLEN` = 32 bits (rules R5, R11). -/
abbrev Word := BitVec 32

/-- A byte: 8 bits, bit 7 the most significant (rule R7). -/
abbrev Byte := BitVec 8

end Sys2Proof
end

