-- ==== Sys2Proof/Syntax.lean ====
section
/-! DEFINITION. The syntax: the 26 commands (one constructor per row of `spec/opcode_table.json`), the operands their
words carry, the registers of the register block, and the host operations that drive the engine. -/

namespace Sys2Proof

/-- A slot index: one of the `NBUF` = 16 buffer slots `B[0]` to `B[15]` (rules R5, R30). -/
abbrev SlotIx := Fin 16

/-- A bit depth, 1, 2, 4 or 8 bits per pixel: "`bitDepth ∈ {1,2,4,8}`" (rules R5, R71). -/
inductive Depth where
  | d1
  | d2
  | d4
  | d8
  deriving DecidableEq, Repr

/-- The 26 commands of `30_encoding.md` rule R73. `rd` is the slot the command writes, queries or creates, `rs` the
second, read-only slot, `dc` the depth an ALLOC or an XLUT names (rule R70). -/
inductive Instr where
  | nop
  | alloc (rd : SlotIx) (dc : Depth)
  | free (rd : SlotIx)
  | ldb (rd : SlotIx)
  | stb (rd : SlotIx)
  | xlut (dc : Depth)
  | getpixel (rd : SlotIx)
  | setpixel (rd : SlotIx)
  | width (rd : SlotIx)
  | height (rd : SlotIx)
  | ismono (rd : SlotIx)
  | clone (rd rs : SlotIx)
  | copyfrom (rd rs : SlotIx)
  | fill (rd : SlotIx)
  | fillrect (rd : SlotIx)
  | flipx (rd : SlotIx)
  | flipy (rd : SlotIx)
  | scroll (rd : SlotIx)
  | doubledx (rd rs : SlotIx)
  | doubledy (rd rs : SlotIx)
  | doubled (rd rs : SlotIx)
  | replace (rd : SlotIx)
  | drawimage (rd rs : SlotIx)
  | drawtransparent (rd rs : SlotIx)
  | overlaps (rd rs : SlotIx)
  | drawcore (rd rs : SlotIx)
  deriving DecidableEq, Repr

/-- The registers of the 64-byte register block (rule R22): six control registers and `P[0]` to `P[7]`. -/
inductive RegName where
  | id
  | ctrl
  | status
  | cause
  | fcmd
  | cmd
  | p (i : Fin 8)
  deriving DecidableEq, Repr

/-- One event from outside the engine: a host register access (rules R95, R96), made with an access size in bits
at a byte offset of the register block, or the reset input `rst` (rule R210). -/
inductive HostOp where
  /-- `HostWrite(off, v)` as an access of `bits` bits -/
  | write (bits off : Nat) (v : Word)
  /-- `HostRead(off)` as an access of `bits` bits -/
  | read (bits off : Nat)
  /-- the reset input, applied between two register accesses -/
  | rst
  deriving DecidableEq, Repr

end Sys2Proof
end

