-- ==== Sys2Proof/WellFormed.lean ====
section
/-! DEFINITION. What a well-formed command word and an admitted host access are.

A term of `Instr` is well formed by its type alone: a slot index is below 16 and a depth is one of 1, 2, 4, 8, so no
ill-formed term of `Instr` can be written. What can be ill formed is a raw command word (rule R74) and a host access
(rule R29); both are checked here, field by field, apart from the decoder. -/

namespace Sys2Proof

/-- The five fields of a command word as rule R70 lays them out, before any check. -/
structure Fields where
  op : BitVec 8
  rd : BitVec 4
  rs : BitVec 4
  dc : BitVec 2
  zero : BitVec 14
  deriving DecidableEq, Repr

/-- Which of the three operand fields an opcode uses: the columns RD, RS and DC of rule R73. -/
structure Uses where
  rd : Bool
  rs : Bool
  dc : Bool
  deriving DecidableEq, Repr

/-- The columns RD, RS, DC of rule R73 for each assigned `OP`; nothing for the 230 unassigned values (rule R75). -/
def opUses (op : BitVec 8) : Option Uses :=
  if op ∈ [0x00#8] then some ⟨false, false, false⟩
  else if op ∈ [0x01#8] then some ⟨true, false, true⟩
  else if op ∈ [0x05#8] then some ⟨false, false, true⟩
  else if op ∈ [0x02#8, 0x03#8, 0x04#8, 0x10#8, 0x11#8, 0x12#8, 0x13#8, 0x14#8,
                0x20#8, 0x21#8, 0x22#8, 0x23#8, 0x24#8, 0x28#8] then some ⟨true, false, false⟩
  else if op ∈ [0x15#8, 0x16#8, 0x25#8, 0x26#8, 0x27#8, 0x30#8, 0x31#8, 0x32#8, 0x33#8] then
    some ⟨true, true, false⟩
  else none

/-- A legal command by rule R74: the zero field is 0, the opcode is assigned, and every unused field is 0. -/
def Fields.wellFormed (f : Fields) : Bool :=
  f.zero == 0#14 &&
  match opUses f.op with
  | none => false
  | some u => (u.rd || f.rd == 0#4) && (u.rs || f.rs == 0#4) && (u.dc || f.dc == 0#2)

/-- A host access the map of rule R22 defines (rules R29, R95, R96): 32 bits, at a multiple of 4 below 0x40, and not
at the reserved offsets 0x18 and 0x1C. -/
def accessWellFormed (bits off : Nat) : Bool :=
  bits == 32 && off % 4 == 0 && off < 0x40 && off != 0x18 && off != 0x1C

/-- A host operation a model admits: a defined access, or reset (rules R29, R210). -/
def HostOp.wellFormed : HostOp → Bool
  | .write bits off _ => accessWellFormed bits off
  | .read bits off => accessWellFormed bits off
  | .rst => true

end Sys2Proof
end

