-- ==== Sys2Proof/Decode.lean ====
section
/-! DEFINITION. The decoder of a command word, total, with a named rejection for every word that is no command, and
after it the encoder, both written from `30_encoding.md` rules R70 to R75. -/

namespace Sys2Proof

/-- Why a word is no command (rule R74). Every one of them is the fault `IllegalCmd` when the word is executed
(rule R75), so the distinction is for the reader only. -/
inductive DecodeError where
  /-- bits [31:18] are not 0 -/
  | zeroFieldSet
  /-- `OP` is none of the 26 listed values -/
  | unassignedOp
  /-- the command does not use `RD` and `RD` is not 0 -/
  | unusedRd
  /-- the command does not use `RS` and `RS` is not 0 -/
  | unusedRs
  /-- the command does not use `DC` and `DC` is not 0 -/
  | unusedDc
  deriving DecidableEq, Repr

/-- The depth code `dc`: 0, 1, 2, 3 for 1, 2, 4, 8 bits per pixel (rule R70). -/
def Depth.code : Depth → BitVec 2
  | .d1 => 0#2
  | .d2 => 1#2
  | .d4 => 2#2
  | .d8 => 3#2

/-- The depth a `DC` field names, `1 << DC`; all four codes are legal (rule R71). -/
def Depth.ofCode (c : BitVec 2) : Depth :=
  if c = 0#2 then .d1 else if c = 1#2 then .d2 else if c = 2#2 then .d4 else .d8

/-- The fields of a word (rule R71): `OP = w[7:0]`, `RD = w[11:8]`, `RS = w[15:12]`, `DC = w[17:16]`, and the zero
field `w[31:18]`. -/
def wordFields (w : Word) : Fields where
  op := w.extractLsb' 0 8
  rd := w.extractLsb' 8 4
  rs := w.extractLsb' 12 4
  dc := w.extractLsb' 16 2
  zero := w.extractLsb' 18 14

/-- The word of five fields, as rule R70 draws it: zero, `DC`, `RS`, `RD`, `OP` from the high bits down. -/
def fieldsWord (f : Fields) : Word :=
  f.zero ++ (f.dc ++ (f.rs ++ (f.rd ++ f.op)))

/-- What an opcode's row says of the operand fields: which it uses, and the command it makes of them (rule R73). -/
inductive Form where
  /-- no field is used -/
  | bare (i : Instr)
  /-- `RD` -/
  | one (f : SlotIx → Instr)
  /-- `RD` and `RS` -/
  | two (f : SlotIx → SlotIx → Instr)
  /-- `RD` and `DC` -/
  | make (f : SlotIx → Depth → Instr)
  /-- `DC` -/
  | table (f : Depth → Instr)

/-- The opcode map of rule R73. -/
def opcodeForms : List (BitVec 8 × Form) := [
  (0x00#8, .bare .nop),
  (0x01#8, .make .alloc),
  (0x02#8, .one .free),
  (0x03#8, .one .ldb),
  (0x04#8, .one .stb),
  (0x05#8, .table .xlut),
  (0x10#8, .one .getpixel),
  (0x11#8, .one .setpixel),
  (0x12#8, .one .width),
  (0x13#8, .one .height),
  (0x14#8, .one .ismono),
  (0x15#8, .two .clone),
  (0x16#8, .two .copyfrom),
  (0x20#8, .one .fill),
  (0x21#8, .one .fillrect),
  (0x22#8, .one .flipx),
  (0x23#8, .one .flipy),
  (0x24#8, .one .scroll),
  (0x25#8, .two .doubledx),
  (0x26#8, .two .doubledy),
  (0x27#8, .two .doubled),
  (0x28#8, .one .replace),
  (0x30#8, .two .drawimage),
  (0x31#8, .two .drawtransparent),
  (0x32#8, .two .overlaps),
  (0x33#8, .two .drawcore)]

/-- The slot a 4-bit field names. -/
def slotOf (r : BitVec 4) : SlotIx := r.toFin

/-- The command a form makes of the fields, once every field it does not use is 0 (rule R74). -/
def Form.build (form : Form) (f : Fields) : Except DecodeError Instr :=
  match form with
  | .bare i =>
    if f.rd ≠ 0#4 then .error .unusedRd
    else if f.rs ≠ 0#4 then .error .unusedRs
    else if f.dc ≠ 0#2 then .error .unusedDc
    else .ok i
  | .one c =>
    if f.rs ≠ 0#4 then .error .unusedRs
    else if f.dc ≠ 0#2 then .error .unusedDc
    else .ok (c (slotOf f.rd))
  | .two c =>
    if f.dc ≠ 0#2 then .error .unusedDc
    else .ok (c (slotOf f.rd) (slotOf f.rs))
  | .make c =>
    if f.rs ≠ 0#4 then .error .unusedRs
    else .ok (c (slotOf f.rd) (Depth.ofCode f.dc))
  | .table c =>
    if f.rd ≠ 0#4 then .error .unusedRd
    else if f.rs ≠ 0#4 then .error .unusedRs
    else .ok (c (Depth.ofCode f.dc))

/-- The decoder on fields: the zero field, then the opcode, then the unused fields. -/
def decodeFields (f : Fields) : Except DecodeError Instr :=
  if f.zero ≠ 0#14 then .error .zeroFieldSet
  else
    match opcodeForms.lookup f.op with
    | none => .error .unassignedOp
    | some form => form.build f

/-- The decoder of a command word (rules R70 to R75): the command, or the reason the word is none. -/
def decode (w : Word) : Except DecodeError Instr :=
  decodeFields (wordFields w)

/-- The host's fixed name: the command read from an instruction of `nbits` bits whose bits are `w`. A command is one
32-bit register word written whole (rules R50 (e), R70), so there is no byte order to lay it out in; every bit above
`nbits` is 0. -/
def decodeTableWord (nbits w : Nat) : Option Instr :=
  match decode (BitVec.ofNat 32 (w % 2 ^ nbits)) with
  | .ok i => some i
  | .error _ => none

/-- The fields of a command's word, from the columns of rule R73; a field it does not use is 0. -/
def Instr.fields : Instr → Fields
  | .nop => ⟨0x00#8, 0#4, 0#4, 0#2, 0#14⟩
  | .alloc rd dc => ⟨0x01#8, BitVec.ofFin rd, 0#4, dc.code, 0#14⟩
  | .free rd => ⟨0x02#8, BitVec.ofFin rd, 0#4, 0#2, 0#14⟩
  | .ldb rd => ⟨0x03#8, BitVec.ofFin rd, 0#4, 0#2, 0#14⟩
  | .stb rd => ⟨0x04#8, BitVec.ofFin rd, 0#4, 0#2, 0#14⟩
  | .xlut dc => ⟨0x05#8, 0#4, 0#4, dc.code, 0#14⟩
  | .getpixel rd => ⟨0x10#8, BitVec.ofFin rd, 0#4, 0#2, 0#14⟩
  | .setpixel rd => ⟨0x11#8, BitVec.ofFin rd, 0#4, 0#2, 0#14⟩
  | .width rd => ⟨0x12#8, BitVec.ofFin rd, 0#4, 0#2, 0#14⟩
  | .height rd => ⟨0x13#8, BitVec.ofFin rd, 0#4, 0#2, 0#14⟩
  | .ismono rd => ⟨0x14#8, BitVec.ofFin rd, 0#4, 0#2, 0#14⟩
  | .clone rd rs => ⟨0x15#8, BitVec.ofFin rd, BitVec.ofFin rs, 0#2, 0#14⟩
  | .copyfrom rd rs => ⟨0x16#8, BitVec.ofFin rd, BitVec.ofFin rs, 0#2, 0#14⟩
  | .fill rd => ⟨0x20#8, BitVec.ofFin rd, 0#4, 0#2, 0#14⟩
  | .fillrect rd => ⟨0x21#8, BitVec.ofFin rd, 0#4, 0#2, 0#14⟩
  | .flipx rd => ⟨0x22#8, BitVec.ofFin rd, 0#4, 0#2, 0#14⟩
  | .flipy rd => ⟨0x23#8, BitVec.ofFin rd, 0#4, 0#2, 0#14⟩
  | .scroll rd => ⟨0x24#8, BitVec.ofFin rd, 0#4, 0#2, 0#14⟩
  | .doubledx rd rs => ⟨0x25#8, BitVec.ofFin rd, BitVec.ofFin rs, 0#2, 0#14⟩
  | .doubledy rd rs => ⟨0x26#8, BitVec.ofFin rd, BitVec.ofFin rs, 0#2, 0#14⟩
  | .doubled rd rs => ⟨0x27#8, BitVec.ofFin rd, BitVec.ofFin rs, 0#2, 0#14⟩
  | .replace rd => ⟨0x28#8, BitVec.ofFin rd, 0#4, 0#2, 0#14⟩
  | .drawimage rd rs => ⟨0x30#8, BitVec.ofFin rd, BitVec.ofFin rs, 0#2, 0#14⟩
  | .drawtransparent rd rs => ⟨0x31#8, BitVec.ofFin rd, BitVec.ofFin rs, 0#2, 0#14⟩
  | .overlaps rd rs => ⟨0x32#8, BitVec.ofFin rd, BitVec.ofFin rs, 0#2, 0#14⟩
  | .drawcore rd rs => ⟨0x33#8, BitVec.ofFin rd, BitVec.ofFin rs, 0#2, 0#14⟩

/-- The encoder: the command word of an instruction (rules R70, R73). -/
def encode (i : Instr) : Word := fieldsWord i.fields

/-- A row of rule R73's table as it is printed: the mnemonic, `match` and `mask`. -/
structure OpcodeRow where
  mnemonic : String
  pattern : Word
  mask : Word
  deriving DecidableEq, Repr

/-- The word is a command of the row: `w & mask = match` (rule R73). -/
def OpcodeRow.matches (r : OpcodeRow) (w : Word) : Bool := w &&& r.mask == r.pattern

/-- Rule R73's columns mnemonic, match and mask, row by row: the machine-readable copy of the table, against which
the decoder above is stated and tested. -/
def opcodeTable : List OpcodeRow := [
  ⟨"NOP", 0x00000000#32, 0xFFFFFFFF#32⟩,
  ⟨"ALLOC", 0x00000001#32, 0xFFFCF0FF#32⟩,
  ⟨"FREE", 0x00000002#32, 0xFFFFF0FF#32⟩,
  ⟨"LDB", 0x00000003#32, 0xFFFFF0FF#32⟩,
  ⟨"STB", 0x00000004#32, 0xFFFFF0FF#32⟩,
  ⟨"XLUT", 0x00000005#32, 0xFFFCFFFF#32⟩,
  ⟨"GETPIXEL", 0x00000010#32, 0xFFFFF0FF#32⟩,
  ⟨"SETPIXEL", 0x00000011#32, 0xFFFFF0FF#32⟩,
  ⟨"WIDTH", 0x00000012#32, 0xFFFFF0FF#32⟩,
  ⟨"HEIGHT", 0x00000013#32, 0xFFFFF0FF#32⟩,
  ⟨"ISMONO", 0x00000014#32, 0xFFFFF0FF#32⟩,
  ⟨"CLONE", 0x00000015#32, 0xFFFF00FF#32⟩,
  ⟨"COPYFROM", 0x00000016#32, 0xFFFF00FF#32⟩,
  ⟨"FILL", 0x00000020#32, 0xFFFFF0FF#32⟩,
  ⟨"FILLRECT", 0x00000021#32, 0xFFFFF0FF#32⟩,
  ⟨"FLIPX", 0x00000022#32, 0xFFFFF0FF#32⟩,
  ⟨"FLIPY", 0x00000023#32, 0xFFFFF0FF#32⟩,
  ⟨"SCROLL", 0x00000024#32, 0xFFFFF0FF#32⟩,
  ⟨"DOUBLEDX", 0x00000025#32, 0xFFFF00FF#32⟩,
  ⟨"DOUBLEDY", 0x00000026#32, 0xFFFF00FF#32⟩,
  ⟨"DOUBLED", 0x00000027#32, 0xFFFF00FF#32⟩,
  ⟨"REPLACE", 0x00000028#32, 0xFFFFF0FF#32⟩,
  ⟨"DRAWIMAGE", 0x00000030#32, 0xFFFF00FF#32⟩,
  ⟨"DRAWTRANSPARENT", 0x00000031#32, 0xFFFF00FF#32⟩,
  ⟨"OVERLAPS", 0x00000032#32, 0xFFFF00FF#32⟩,
  ⟨"DRAWCORE", 0x00000033#32, 0xFFFF00FF#32⟩]

/-- The mnemonic of a command, as rule R73 spells it. -/
def Instr.mnemonic : Instr → String
  | .nop => "NOP"
  | .alloc _ _ => "ALLOC"
  | .free _ => "FREE"
  | .ldb _ => "LDB"
  | .stb _ => "STB"
  | .xlut _ => "XLUT"
  | .getpixel _ => "GETPIXEL"
  | .setpixel _ => "SETPIXEL"
  | .width _ => "WIDTH"
  | .height _ => "HEIGHT"
  | .ismono _ => "ISMONO"
  | .clone _ _ => "CLONE"
  | .copyfrom _ _ => "COPYFROM"
  | .fill _ => "FILL"
  | .fillrect _ => "FILLRECT"
  | .flipx _ => "FLIPX"
  | .flipy _ => "FLIPY"
  | .scroll _ => "SCROLL"
  | .doubledx _ _ => "DOUBLEDX"
  | .doubledy _ _ => "DOUBLEDY"
  | .doubled _ _ => "DOUBLED"
  | .replace _ => "REPLACE"
  | .drawimage _ _ => "DRAWIMAGE"
  | .drawtransparent _ _ => "DRAWTRANSPARENT"
  | .overlaps _ _ => "OVERLAPS"
  | .drawcore _ _ => "DRAWCORE"

end Sys2Proof
end

