-- ==== Sys2Proof/Config.lean ====
section
/-! DEFINITION. The implementation parameters of `00_scope.md` rule R5, each with the value rule R5 gives for this
hardware. `PM_CAPACITY`, which rule R5 leaves OPEN ("model argument"), is not here but a field of `State`
(`State.pmCapacity`), so that a statement about every state is a statement about every capacity; `resetCapacity`
below is only the value the fixed name `State.reset` puts there. -/

namespace Sys2Proof

/-- The two lane orders of rule R44. -/
inductive LaneOrder where
  /-- lane `k` in bits `[k*d + d - 1 : k*d]`: the pixel of smallest `x` is least significant -/
  | lsbFirst
  /-- lane `k` in bits `[(ppb - 1 - k)*d + d - 1 : (ppb - 1 - k)*d]`: the alternative, not this hardware -/
  | msbFirst
  deriving DecidableEq, Repr

/-- `LANE_ORDER` of this hardware (rules R5, R44; the spec's decision D3). -/
def Config.laneOrder : LaneOrder := .lsbFirst

/-- `MAX_DIM`: the largest legal width and height of a buffer; the smallest is 1 (rule R5; D4). -/
def Config.maxDim : Nat := 65535

/-- `ID_VALUE`: what the read-only register `ID` reads (rules R5, R23; D31). -/
def Config.idValue : Word := 0x50504501#32

/-- What the fixed name `State.reset` puts into `State.pmCapacity`: unbounded, as the programs of
`95_test_vectors.md` section 3 assume. DESIGN CHOICE (log entry 1), unsafe for a statement about runs from
`State.reset`, which could lean on it; every statement of this package is about every capacity. -/
def Config.resetCapacity : Option Nat := none

end Sys2Proof
end

