-- ==== Sys2Proof/Machine/State.lean ====
section
/-! DEFINITION. The state of the PPE as plain data (`10_state.md` rules R10 to R38), the reasons a step can stop, and
the state after reset (rule R37). -/

namespace Sys2Proof.Machine

/-- The bytes of one buffer, by offset, in canonical form: offsets strictly rising, and no entry equal to what an
unlisted offset reads as (0, `Memory.unlisted`). A buffer of 65535 x 65535 pixels is one literal this way. -/
abbrev Memory := List Host.Cell

/-- What a valid slot holds (rule R30): the descriptor fields and the data. -/
structure Buffer where
  /-- `B[s].width`, 16 bits unsigned -/
  width : BitVec 16
  /-- `B[s].height`, 16 bits unsigned -/
  height : BitVec 16
  /-- `B[s].dc`, the depth code (2 bits), held as the depth it names -/
  depth : Depth
  /-- `B[s].data`, the bytes at offsets 0 to `len(s) - 1` -/
  data : Memory
  deriving DecidableEq, Repr

/-- The eight operand and result registers `P[0]` to `P[7]` under their aliases (rule R11), 32 bits each. -/
structure OpRegs where
  /-- `P[0]`, `X` -/
  x : Word
  /-- `P[1]`, `Y` -/
  y : Word
  /-- `P[2]`, `W` -/
  w : Word
  /-- `P[3]`, `H` -/
  h : Word
  /-- `P[4]`, `C` -/
  c : Word
  /-- `P[5]`, `C2` -/
  c2 : Word
  /-- `P[6]`, `RES` -/
  res : Word
  /-- `P[7]`, `RESH` -/
  resh : Word
  deriving DecidableEq, Repr

/-- The ten faults of rule R181, in the order of their cause codes. They are no stop of the model: taking one is a
next state (rule R192, `State.takeFault`). -/
inductive Cause where
  | illegalCmd
  | badSlot
  | slotBusy
  | alias_
  | dimMismatch
  | depthMismatch
  | dimRange
  | coordRange
  | offsetRange
  | allocFail
  deriving DecidableEq, Repr

/-- The state of the machine: rule R10's tuple, then the capacity the spec leaves to the model as an argument, then
the host's side of the register block (rule R20's program and its index, and what the host's reads returned). -/
structure State where
  /-- `P[0..7]` (rule R11) -/
  regs : OpRegs
  /-- `CTRL.STRICT`, the one bit of `CTRL` that is not hardwired 0 (rule R24) -/
  strict : Bool
  /-- `STATUS.FAULT`, the one bit of `STATUS` that is not always 0 (rule R25) -/
  fault : Bool
  /-- `CAUSE[7:0]`; bits [31:8] read 0 (rule R26) -/
  cause : BitVec 8
  /-- `FCMD` (rule R27) -/
  fcmd : Word
  /-- `CMD`, the last command word accepted (rule R28) -/
  cmd : Word
  /-- the slots `B[0]` to `B[15]`: `B[s].valid` = 1 exactly when the slot holds a buffer (rule R30) -/
  slots : Vector (Option Buffer) 16
  /-- `PM_CAPACITY`, `none` for unbounded: the model's argument, which no step changes (rule R5, log entry 1) -/
  pmCapacity : Option Nat
  /-- the host's program: the finite list of its operations (rule R20, log entry 2) -/
  program : List HostOp
  /-- the index of the host's next operation (rule R20) -/
  pc : Nat
  /-- the values the host's reads returned, oldest first (rule R96, log entry 2) -/
  reads : List Word
  deriving DecidableEq, Repr

/-- Why the machine stops with a fault: NEVER. Every fault of the spec is taken as a next state in which
`STATUS.FAULT` = 1 (rules R181, R192), and the spec calls no behaviour stuck (`93_implementation_defined.md`, end of
section 1), so this type has no constructor. Safe: there is no stop to hide behind. -/
inductive Fault
  deriving DecidableEq, Repr

/-- Why the model refuses a step. -/
inductive Refusal where
  /-- An instruction without a meaning; raised by an arm of `exec` only, and by none now. Safe. -/
  | notModelled (mnemonic : String)
  /-- A host access at offset 0x18 or 0x1C or at 0x40 or more, which the register map does not define; raised by the
  host access alone (rule R29, U8: "a model refuses them"). Safe: nothing is claimed after it. -/
  | undefinedOffset (off : Nat)
  /-- A host access at an offset that is no multiple of 4; raised by the host access alone (rules R29, R51). Safe. -/
  | misalignedAccess (off : Nat)
  /-- A host access of a size other than 32 bits; raised by the host access alone (rule R29). Safe. -/
  | accessSize (bits : Nat)
  deriving DecidableEq, Repr

/-- The state after reset with a given capacity (rule R37): every register 0, no fault, every slot free; and a host
that has issued no operation yet. -/
def State.resetWith (capacity : Option Nat) : State where
  regs := ⟨0, 0, 0, 0, 0, 0, 0, 0⟩
  strict := false
  fault := false
  cause := 0
  fcmd := 0
  cmd := 0
  slots := Vector.replicate 16 none
  pmCapacity := capacity
  program := []
  pc := 0
  reads := []

/-- The machine right after reset (rules R37, R211). The capacity is log entry 1's. -/
def State.reset : State := State.resetWith Config.resetCapacity

end Sys2Proof.Machine
end

