-- ==== Sys2Proof/Machine/Layout.lean ====
section
/-! DEFINITION. How pixels lie in bytes: depths, masks, rows, lanes (`20_memory.md` rules R41 to R45). -/

namespace Sys2Proof.Machine

/-- Bits per pixel: `1 << dc` (rules R30, R71). -/
def bitsOf : Depth → Nat
  | .d1 => 1
  | .d2 => 2
  | .d4 => 4
  | .d8 => 8

/-- `ppb(d) = 8 div d`, pixels to a byte (rule R42). -/
def ppb (d : Depth) : Nat := 8 / bitsOf d

/-- `mask(d) = (1 << d) - 1` as a byte: 1, 3, 15, 255 (rule R45). -/
def maskOf (d : Depth) : Byte := (BitVec.allOnes 8) >>> (8 - bitsOf d)

/-- `v & mask(d)` for any integer `v`, on its two's complement form: the low `d` bits (rules R7, R45). -/
def truncate (d : Depth) (v : Int) : Nat := (v % (2 ^ bitsOf d : Int)).toNat

/-- `rowBytes(w, d) = (w*d + 7) div 8` (rule R41). -/
def rowBytes (w : Nat) (d : Depth) : Nat := (w * bitsOf d + 7) / 8

/-- The bytes of a buffer of width `w`, height `h` and depth `d`: `h * rowBytes(w, d)` (rules R31 (b), R41). -/
def dataLen (w h : Nat) (d : Depth) : Nat := h * rowBytes w d

/-- `laneShift(k, d)` under a lane order (rule R44). -/
def laneShiftUnder (order : LaneOrder) (k : Nat) (d : Depth) : Nat :=
  match order with
  | .lsbFirst => k * bitsOf d
  | .msbFirst => (ppb d - 1 - k) * bitsOf d

/-- `laneShift(k, d)` of this hardware: every rule reaches a bit position through it and nothing else (rule R44). -/
def laneShift (k : Nat) (d : Depth) : Nat := laneShiftUnder Config.laneOrder k d

/-- The value of lane `k` of a byte: `(b >> laneShift(k, d)) & mask(d)` (rules R47, R131). -/
def laneRead (d : Depth) (k : Nat) (b : Byte) : Byte := (b >>> laneShift k d) &&& maskOf d

/-- The byte with lane `k` replaced: `(b & ~(m << sh)) | ((v & m) << sh)` (rule R48); `v` is any integer, of which
the low `d` bits are kept. -/
def laneWrite (d : Depth) (k : Nat) (v : Int) (b : Byte) : Byte :=
  (b &&& ~~~(maskOf d <<< laneShift k d)) ||| ((BitVec.ofInt 8 v &&& maskOf d) <<< laneShift k d)

end Sys2Proof.Machine
end

