-- ==== Sys2Proof/Machine/Memory.lean ====
section
/-! DEFINITION. The bytes of a buffer as a canonical list of cells: reading one byte and writing one byte
(`20_memory.md` rules R8, R40, R52: all of `MemRead`, `MemWrite` move one byte). -/

namespace Sys2Proof.Machine

/-- What an offset that no entry lists reads as: the zero of a fresh buffer (rules R91, R60 (c)). -/
def Memory.unlisted : Byte := 0#8

/-- The byte at an offset: `B[s].data[off]` (rule R8). -/
def Memory.read : Memory → Nat → Byte
  | [], _ => Memory.unlisted
  | (b, u) :: rest, a => if a = b then u else Memory.read rest a

/-- Puts a cell in front, unless its byte is what an unlisted offset reads as. -/
def Memory.cons (a : Nat) (v : Byte) (rest : Memory) : Memory :=
  if v = Memory.unlisted then rest else (a, v) :: rest

/-- Writes one byte: `B[s].data[off] <- v` (rule R8), keeping the canonical form. -/
def Memory.write : Memory → Nat → Byte → Memory
  | [], a, v => Memory.cons a v []
  | (b, u) :: rest, a, v =>
    if a < b then Memory.cons a v ((b, u) :: rest)
    else if a = b then Memory.cons a v rest
    else (b, u) :: Memory.write rest a v

/-- Every offset listed is above `lo` (when there is a `lo`), the offsets strictly rise, and no entry is equal to
what an unlisted offset reads as. -/
def Memory.wfAbove (lo : Option Nat) : Memory → Bool
  | [] => true
  | (b, u) :: rest =>
    (match lo with | none => true | some l => decide (l < b)) && (u != Memory.unlisted) &&
      Memory.wfAbove (some b) rest

/-- The canonical form of a buffer's bytes. -/
def Memory.wf (m : Memory) : Bool := Memory.wfAbove none m

/-- Every offset listed is below `n`: there is no byte at or after `len(s)` (rule R40). -/
def Memory.below (n : Nat) (m : Memory) : Bool := m.all fun cell => decide (cell.1 < n)

end Sys2Proof.Machine
end

