-- ==== Sys2Proof/Machine/Pixels.lean ====
section
/-! DEFINITION. The operations on one buffer: a byte, a pixel, a clipped pixel write, and a list of pixel writes
(`20_memory.md` rules R40 to R49, R66). -/

namespace Sys2Proof.Machine

/-- `B[s].width` as a number. -/
def Buffer.w (b : Buffer) : Nat := b.width.toNat

/-- `B[s].height` as a number. -/
def Buffer.h (b : Buffer) : Nat := b.height.toNat

/-- The bytes of one row, `rb` (rule R42). -/
def Buffer.rowBytes (b : Buffer) : Nat := Sys2Proof.Machine.rowBytes b.w b.depth

/-- `len(s)`, the number of data bytes (rules R31 (b), R41). -/
def Buffer.len (b : Buffer) : Nat := dataLen b.w b.h b.depth

/-- The lanes of one row: its pixels, then its padding lanes (rules R43, R46). -/
def Buffer.lanesPerRow (b : Buffer) : Nat := b.rowBytes * ppb b.depth

/-- `MemRead((s, off), 1)` (rule R8). -/
def Buffer.readByte (b : Buffer) (off : Nat) : Byte := b.data.read off

/-- `MemWrite((s, off), 1, v)` (rule R8). -/
def Buffer.writeByte (b : Buffer) (off : Nat) (v : Byte) : Buffer := { b with data := b.data.write off v }

/-- `byteOff(s, x, y) = y*rb + x div ppb` (rule R42). -/
def Buffer.byteOff (b : Buffer) (x y : Nat) : Nat := y * b.rowBytes + x / ppb b.depth

/-- `0 ≤ x < width` and `0 ≤ y < height`, on exact integers (rules R6, R49). -/
def Buffer.inBounds (b : Buffer) (x y : Int) : Bool := 0 ≤ x && x < b.w && 0 ≤ y && y < b.h

/-- `PixRead(s, x, y)` (rule R47). On a padding lane (`width ≤ x < lanesPerRow`), which no command reads as a pixel,
it gives the padding bits. -/
def Buffer.pixRead (b : Buffer) (x y : Nat) : Nat :=
  (laneRead b.depth (x % ppb b.depth) (b.readByte (b.byteOff x y))).toNat

/-- `PixWrite(s, x, y, v)` for any integer `v` (rule R48). -/
def Buffer.pixWrite (b : Buffer) (x y : Nat) (v : Int) : Buffer :=
  b.writeByte (b.byteOff x y) (laneWrite b.depth (x % ppb b.depth) v (b.readByte (b.byteOff x y)))

/-- `PixWriteClipped(s, x, y, v)` for any integers `x`, `y`, `v` (rule R49). -/
def Buffer.pixWriteClipped (b : Buffer) (x y v : Int) : Buffer :=
  if b.inBounds x y then b.pixWrite x.toNat y.toNat v else b

/-- One pixel write a command asks for: a coordinate, which may lie outside the buffer, and a value. -/
structure PixelWrite where
  x : Int
  y : Int
  v : Int
  deriving DecidableEq, Repr

/-- Applies a command's writes in order, each clipped. A command computes its whole list from the state it started
in and then applies it: the snapshot of rule R66. -/
def Buffer.writeAll (b : Buffer) (ws : List PixelWrite) : Buffer :=
  ws.foldl (fun acc q => acc.pixWriteClipped q.x q.y q.v) b

/-- The coordinates `(x, y)` of a `w` by `h` rectangle: row by row, `x` fastest. -/
def grid (w h : Nat) : List (Nat × Nat) :=
  (List.range h).flatMap fun y => (List.range w).map fun x => (x, y)

/-- A buffer of a width, a height and a depth, all bytes 0 (rules R91, R46). -/
def Buffer.zeroed (w h : Nat) (d : Depth) : Buffer where
  width := BitVec.ofNat 16 w
  height := BitVec.ofNat 16 h
  depth := d
  data := []

/-- Two buffers of one shape: the same width, height and depth, so the same geometry. -/
structure Buffer.SameShape (b b' : Buffer) : Prop where
  width : b'.width = b.width
  height : b'.height = b.height
  depth : b'.depth = b.depth

end Sys2Proof.Machine
end

