-- ==== Sys2Proof/Machine/Ops.lean ====
section
/-! DEFINITION. The named operations over the state: registers, slots, taking a fault and the way back from one, and
the checks the commands share (`60_exceptions.md` rules R181 to R196). -/

namespace Sys2Proof.Machine

/-- The outcome of one instruction or one step. -/
abbrev Result := Host.Outcome State Fault Refusal

/-- `P[i]` (rules R8, R11). -/
def OpRegs.get (r : OpRegs) (i : Fin 8) : Word :=
  match i with
  | 0 => r.x
  | 1 => r.y
  | 2 => r.w
  | 3 => r.h
  | 4 => r.c
  | 5 => r.c2
  | 6 => r.res
  | 7 => r.resh

/-- `P[i] <- v`, all 32 bits (rules R8, R14). -/
def OpRegs.set (r : OpRegs) (i : Fin 8) (v : Word) : OpRegs :=
  match i with
  | 0 => { r with x := v }
  | 1 => { r with y := v }
  | 2 => { r with w := v }
  | 3 => { r with h := v }
  | 4 => { r with c := v }
  | 5 => { r with c2 := v }
  | 6 => { r with res := v }
  | 7 => { r with resh := v }

/-- What slot `r` holds: nothing while `B[r].valid` = 0 (rule R30). -/
def State.slot (s : State) (r : SlotIx) : Option Buffer := s.slots[r]

/-- Gives slot `r` a buffer, or frees it. -/
def State.setSlot (s : State) (r : SlotIx) (b : Option Buffer) : State := { s with slots := s.slots.set r b }

/-- The bytes a slot's buffer occupies; 0 for a free slot. -/
def slotLen : Option Buffer → Nat
  | none => 0
  | some b => b.len

/-- `used`: the sum of `len(t)` over all valid slots (rule R91). -/
def State.used (s : State) : Nat := (s.slots.toList.map slotLen).sum

/-- `used + n ≤ PM_CAPACITY`; with an unbounded capacity always (rules R91, R191). -/
def State.fits (s : State) (n : Nat) : Bool :=
  match s.pmCapacity with
  | none => true
  | some c => s.used + n ≤ c

/-- The cause code of a fault, 1 to 10 (rule R181). -/
def Cause.code : Cause → BitVec 8
  | .illegalCmd => 1
  | .badSlot => 2
  | .slotBusy => 3
  | .alias_ => 4
  | .dimMismatch => 5
  | .depthMismatch => 6
  | .dimRange => 7
  | .coordRange => 8
  | .offsetRange => 9
  | .allocFail => 10

/-- TAKING A FAULT (rule R192): `STATUS.FAULT <- 1`, `CAUSE <- code`, `FCMD <- w`, and nothing else. `CMD` already
holds the faulting word `w` (rule R80). -/
def State.takeFault (s : State) (c : Cause) : State := { s with fault := true, cause := c.code, fcmd := s.cmd }

/-- THE WAY BACK FROM A FAULT (rules R196, R210, R211): there is no return command; only reset clears
`STATUS.FAULT`, and it gives every piece of the engine's state its value of rule R37. The capacity is no state of the
engine, and the host's program, index and record are the host's, so they stay (log entry 3). -/
def State.applyReset (s : State) : State :=
  { State.resetWith s.pmCapacity with program := s.program, pc := s.pc, reads := s.reads }

/-- `raise F` in a command: the fault is taken and the command has no other effect (rules R8, R194). -/
def raise (c : Cause) (s : State) : Result := .next (s.takeFault c)

/-- The check `BadSlot`: goes on with the buffer a slot must hold (rule R183). -/
def needBuffer (r : SlotIx) (s : State) (go : Buffer → Result) : Result :=
  match s.slot r with
  | none => raise .badSlot s
  | some b => go b

/-- The check `SlotBusy`: goes on when the slot that is to receive a new buffer is free (rule R184). -/
def needFree (r : SlotIx) (s : State) (go : Result) : Result :=
  match s.slot r with
  | none => go
  | some _ => raise .slotBusy s

/-- Any other check: raises the fault when the offending condition holds, else goes on. -/
def check (offends : Bool) (c : Cause) (s : State) (go : Result) : Result :=
  if offends then raise c s else go

/-- A command that creates a buffer ends so: the check `AllocFail`, then slot `r` receives it (rules R91, R191). -/
def install (r : SlotIx) (b : Buffer) (s : State) : Result :=
  check (!s.fits b.len) .allocFail s (.next (s.setSlot r (some b)))

/-- A command that changes a buffer's pixels ends so: the writes are applied to the buffer of slot `r`
(rules R33, R66). -/
def paint (r : SlotIx) (b : Buffer) (ws : List PixelWrite) (s : State) : Result :=
  .next (s.setSlot r (some (b.writeAll ws)))

end Sys2Proof.Machine
end

