-- ==== Sys2Proof/Machine/Operands.lean ====
section
/-! DEFINITION. The operand forms: every numeric argument comes from an operand register read as a signed integer,
and every result goes to `RESH:RES` (`30_encoding.md` rule R72, `10_state.md` rules R11 to R13). -/

namespace Sys2Proof.Machine

/-- `X = sext_32(P[0])` (rules R7, R8, R72). -/
def State.opX (s : State) : Int := s.regs.x.toInt

/-- `Y = sext_32(P[1])`. -/
def State.opY (s : State) : Int := s.regs.y.toInt

/-- `W = sext_32(P[2])`. -/
def State.opW (s : State) : Int := s.regs.w.toInt

/-- `H = sext_32(P[3])`. -/
def State.opH (s : State) : Int := s.regs.h.toInt

/-- `C = sext_32(P[4])`. -/
def State.opC (s : State) : Int := s.regs.c.toInt

/-- `C2 = sext_32(P[5])`. -/
def State.opC2 (s : State) : Int := s.regs.c2.toInt

/-- A colour operand as a byte: its bits [7:0] (rule R72; STB and XLUT). -/
def lowByte (v : Int) : Byte := BitVec.ofInt 8 v

/-- `RES64 <- v`: `P[6] <- v[31:0]`, `P[7] <- v[63:32]` (rules R8, R13). -/
def State.setRes64 (s : State) (v : BitVec 64) : State :=
  { s with regs := { s.regs with res := v.extractLsb' 0 32, resh := v.extractLsb' 32 32 } }

/-- A command with a result ends so: `RES64 <- zext_64(v)` (rule R13). -/
def answer (v : Nat) (s : State) : Result := .next (s.setRes64 (BitVec.ofNat 64 v))

/-- A Boolean result: 1 for true and 0 for false (rule R13). -/
def boolResult (p : Bool) : Nat := if p then 1 else 0

/-- The operand registers a command reads, by index and in the order of the "reads" column of rule R12. -/
def operandReads : Instr → List (Fin 8)
  | .nop => []
  | .alloc _ _ => [2, 3]
  | .free _ => []
  | .ldb _ => [0]
  | .stb _ => [0, 4]
  | .xlut _ => [4]
  | .getpixel _ => [0, 1]
  | .setpixel _ => [0, 1, 4]
  | .width _ => []
  | .height _ => []
  | .ismono _ => []
  | .clone _ _ => []
  | .copyfrom _ _ => []
  | .fill _ => [4]
  | .fillrect _ => [0, 1, 2, 3, 4]
  | .flipx _ => []
  | .flipy _ => []
  | .scroll _ => [0, 1]
  | .doubledx _ _ => []
  | .doubledy _ _ => []
  | .doubled _ _ => []
  | .replace _ => [4, 5]
  | .drawimage _ _ => [0, 1]
  | .drawtransparent _ _ => [0, 1]
  | .overlaps _ _ => [0, 1]
  | .drawcore _ _ => [0, 1, 4]

/-- Whether a command writes `RES` and `RESH`: the "writes" column of rule R12. -/
def writesResult : Instr → Bool
  | .nop => false
  | .alloc _ _ => false
  | .free _ => false
  | .ldb _ => true
  | .stb _ => false
  | .xlut _ => true
  | .getpixel _ => true
  | .setpixel _ => false
  | .width _ => true
  | .height _ => true
  | .ismono _ => true
  | .clone _ _ => false
  | .copyfrom _ _ => false
  | .fill _ => false
  | .fillrect _ => false
  | .flipx _ => false
  | .flipy _ => false
  | .scroll _ => false
  | .doubledx _ _ => false
  | .doubledy _ _ => false
  | .doubled _ _ => false
  | .replace _ => false
  | .drawimage _ _ => false
  | .drawtransparent _ _ => false
  | .overlaps _ _ => true
  | .drawcore _ _ => false

end Sys2Proof.Machine
end

