-- ==== Sys2Proof/Machine/Composition.lean ====
section
/-! DEFINITION. The composition operator: DRAWIMAGE, DRAWTRANSPARENT, OVERLAPS, DRAWCORE (`44_composition.md` rules
R160 to R167). The loops run over the source; a write outside the destination is dropped by `PixWriteClipped`. -/

namespace Sys2Proof.Machine

/-- DRAWIMAGE's writes: every source pixel, at `(X + i, Y + j)` (rule R161). -/
def drawimageWrites (src : Buffer) (x y : Int) : List PixelWrite :=
  (grid src.w src.h).map fun q => ⟨x + q.1, y + q.2, src.pixRead q.1 q.2⟩

/-- DRAWTRANSPARENT's writes: the non-zero source pixels (rule R162). -/
def drawtransparentWrites (src : Buffer) (x y : Int) : List PixelWrite :=
  ((grid src.w src.h).filter fun q => src.pixRead q.1 q.2 != 0).map
    fun q => ⟨x + q.1, y + q.2, src.pixRead q.1 q.2⟩

/-- DRAWCORE's writes: the colour at every non-zero source pixel (rule R164). -/
def drawcoreWrites (src : Buffer) (x y c : Int) : List PixelWrite :=
  ((grid src.w src.h).filter fun q => src.pixRead q.1 q.2 != 0).map
    fun q => ⟨x + q.1, y + q.2, c⟩

/-- The two buffers of a composition command: `BadSlot` for `RD`, then for `RS` (rules R160, R193). -/
def needTwo (rd rs : SlotIx) (s : State) (go : Buffer → Buffer → Result) : Result :=
  needBuffer rd s fun dst => needBuffer rs s fun src => go dst src

/-- The condition of `DepthMismatch`: `CTRL.STRICT` = 1 and the depths differ (rules R160, R165, R187). -/
def strictMismatch (s : State) (dst src : Buffer) : Bool := s.strict && src.depth != dst.depth

/-- DRAWIMAGE: the opaque copy, clipped (rule R161). -/
def execDrawimage (rd rs : SlotIx) (s : State) : Result :=
  needTwo rd rs s fun dst src =>
    check (rd == rs) .alias_ s
      (check (strictMismatch s dst src) .depthMismatch s
        (paint rd dst (drawimageWrites src s.opX s.opY) s))

/-- DRAWTRANSPARENT: the copy of the non-zero source pixels, clipped (rule R162). -/
def execDrawtransparent (rd rs : SlotIx) (s : State) : Result :=
  needTwo rd rs s fun dst src =>
    check (rd == rs) .alias_ s
      (check (strictMismatch s dst src) .depthMismatch s
        (paint rd dst (drawtransparentWrites src s.opX s.opY) s))

/-- Whether `other`'s rectangle at `(x, y)` meets `img`'s bounds: `X < dw and Y < dh and X + sw > 0 and Y + sh > 0`
(rule R163). -/
def rectsMeet (img other : Buffer) (x y : Int) : Bool :=
  x < img.w && y < img.h && 0 < x + other.w && 0 < y + other.h

/-- OVERLAPS: whether the rectangles meet, 1 or 0; `RD` = `RS` is allowed and `STRICT` is not consulted
(rule R163). -/
def execOverlaps (rd rs : SlotIx) (s : State) : Result :=
  needTwo rd rs s fun img other => answer (boolResult (rectsMeet img other s.opX s.opY)) s

/-- DRAWCORE: the stencil draw, in the colour `C`, for any pair of depths whatever `STRICT` is (rule R164). -/
def execDrawcore (rd rs : SlotIx) (s : State) : Result :=
  needTwo rd rs s fun dst src =>
    check (rd == rs) .alias_ s
      (paint rd dst (drawcoreWrites src s.opX s.opY s.opC) s)

end Sys2Proof.Machine
end

