-- ==== Sys2Proof/Machine/ExpansionRom.lean ====
section
/-! DEFINITION. The bit-expansion ROM, lane expansion and repacking, and the command XLUT (`42_expansion_rom.md`
rules R130 to R136). The ROM is a constant, not state (rules R10, R35, R133): a function of the depth code and the
byte. -/

namespace Sys2Proof.Machine

/-- `T[dc][b].byte[k]`, the pixel of lane `k` in a byte of its own (rule R131). -/
def romByte (d : Depth) (b : Byte) (k : Nat) : Byte := laneRead d k b

/-- `T[dc][b]` as a sequence of `ppb(d)` bytes; also `Expand(dcs, b)`, the source pixels of a byte, one per byte
(rules R130, R135). -/
def romEntry (d : Depth) (b : Byte) : List Byte := (List.range (ppb d)).map (romByte d b)

/-- A sequence of bytes as a number, byte `k` in bits `[8k+7 : 8k]` (rules R50 (d), R131). -/
def bytesToNat : List Byte → Nat
  | [] => 0
  | v :: rest => v.toNat + 256 * bytesToNat rest

/-- `T[dc][b]` as a number (rule R131). -/
def romNumber (d : Depth) (b : Byte) : Nat := bytesToNat (romEntry d b)

/-- `Convert(dcs, dd, b)`: what `PixWrite` at depth `dd` would store for each pixel of a source byte (rule R135). -/
def convertLanes (dcs dd : Depth) (b : Byte) : List Byte := (romEntry dcs b).map (· &&& maskOf dd)

/-- `OR over k of ((v_k & mask(dd)) << laneShift(k, dd))`, from lane `k` on (rule R135). -/
def repackFrom (dd : Depth) : Nat → List Byte → Byte
  | _, [] => 0#8
  | k, v :: rest => ((v &&& maskOf dd) <<< laneShift k dd) ||| repackFrom dd (k + 1) rest

/-- `Repack(dd, [v0 .. v(n-1)])` (rule R135). -/
def repack (dd : Depth) (vs : List Byte) : Byte := repackFrom dd 0 vs

/-- XLUT: the ROM entry of the word's depth and the low byte of `C`, in `RESH:RES` (rule R134). -/
def execXlut (dc : Depth) (s : State) : Result := answer (romNumber dc (lowByte s.opC)) s

end Sys2Proof.Machine
end

