-- ==== Sys2Proof/Machine/PixelBuffer.lean ====
section
/-! DEFINITION. The Packed Pixel Buffer commands GETPIXEL, SETPIXEL, WIDTH, HEIGHT, ISMONO, CLONE, COPYFROM
(`41_pixel_buffer.md` rules R110 to R116). -/

namespace Sys2Proof.Machine

/-- GETPIXEL: the pixel at `(X, Y)`, which must lie in the buffer (rule R110). -/
def execGetpixel (rd : SlotIx) (s : State) : Result :=
  needBuffer rd s fun b =>
    check (!b.inBounds s.opX s.opY) .coordRange s
      (answer (b.pixRead s.opX.toNat s.opY.toNat) s)

/-- SETPIXEL: the pixel at `(X, Y)`, which must lie in the buffer, becomes `C & mask` (rule R111). -/
def execSetpixel (rd : SlotIx) (s : State) : Result :=
  needBuffer rd s fun b =>
    check (!b.inBounds s.opX s.opY) .coordRange s
      (.next (s.setSlot rd (some (b.pixWrite s.opX.toNat s.opY.toNat s.opC))))

/-- WIDTH (rule R112). -/
def execWidth (rd : SlotIx) (s : State) : Result :=
  needBuffer rd s fun b => answer b.w s

/-- HEIGHT (rule R113). -/
def execHeight (rd : SlotIx) (s : State) : Result :=
  needBuffer rd s fun b => answer b.h s

/-- ISMONO: whether the depth is 1 bit (rule R114). -/
def execIsmono (rd : SlotIx) (s : State) : Result :=
  needBuffer rd s fun b => answer (boolResult (b.depth == .d1)) s

/-- CLONE: a byte-equal copy of `RS`, padding included, in the free slot `RD` (rule R115). -/
def execClone (rd rs : SlotIx) (s : State) : Result :=
  needBuffer rs s fun b => needFree rd s (install rd b s)

/-- Width, height or depth of the two buffers differ: the condition of `DimMismatch` (rules R116, R186). -/
def dimsDiffer (b o : Buffer) : Bool := o.width != b.width || o.height != b.height || o.depth != b.depth

/-- COPYFROM: every byte of `RS` over `RD`, whose shape must be the same (rule R116). The two have the same length,
so the copy of every byte at offsets 0 to `len - 1` is the whole of `RS`'s data. -/
def execCopyfrom (rd rs : SlotIx) (s : State) : Result :=
  needBuffer rd s fun b => needBuffer rs s fun o =>
    check (dimsDiffer b o) .dimMismatch s
      (.next (s.setSlot rd (some { b with data := o.data })))

end Sys2Proof.Machine
end

