-- ==== Sys2Proof/Machine/Rectangular.lean ====
section
/-! DEFINITION. The rectangular operators FILL, FILLRECT, FLIPX, FLIPY, SCROLL, DOUBLEDX, DOUBLEDY, DOUBLED, REPLACE
(`43_rectangular.md` rules R140 to R150). Each computes its list of pixel writes from the buffer as it was when the
command started (rules R66, R140 (c)) and applies it. -/

namespace Sys2Proof.Machine

/-- FILL's writes: `PixWrite(RD, x, y, C)` for every pixel (rule R141). -/
def fillWrites (b : Buffer) (c : Int) : List PixelWrite :=
  (grid b.w b.h).map fun q => ⟨q.1, q.2, c⟩

/-- FILL: every pixel becomes `C & mask` (rule R141). -/
def execFill (rd : SlotIx) (s : State) : Result :=
  needBuffer rd s fun b => paint rd b (fillWrites b s.opC) s

/-- The clipped rectangle `[x0, x1) × [y0, y1)` of rule R150, by its corner, its width and its height; a width or
height of 0 when it is empty. -/
def clipRect (b : Buffer) (x y w h : Int) : Int × Int × Nat × Nat :=
  let x0 := max x 0
  let x1 := min (x + w) b.w
  let y0 := max y 0
  let y1 := min (y + h) b.h
  (x0, y0, (x1 - x0).toNat, (y1 - y0).toNat)

/-- FILLRECT's writes by rule R150's closed form, "for exactly the (x, y) with x0 ≤ x < x1 and y0 ≤ y < y1". The
literal loop of rule R142 is `fillrectGolden` below; the two agree (log entry 9). -/
def fillrectWrites (b : Buffer) (x y w h c : Int) : List PixelWrite :=
  let r := clipRect b x y w h
  (grid r.2.2.1 r.2.2.2).map fun q => ⟨r.1 + q.1, r.2.1 + q.2, c⟩

/-- The loop of rule R142 as it is written: `setPixel(x+i, y+j, color)` over the unclamped logical rectangle. Not
what the machine runs (its length is the product of two operands of up to 2^31), but what it is stated against. -/
def fillrectGolden (x y w h c : Int) : List PixelWrite :=
  (grid w.toNat h.toNat).map fun q => ⟨x + q.1, y + q.2, c⟩

/-- FILLRECT: the pixels of the clipped rectangle become `C & mask` (rules R142, R150). -/
def execFillrect (rd : SlotIx) (s : State) : Result :=
  needBuffer rd s fun b => paint rd b (fillrectWrites b s.opX s.opY s.opW s.opH s.opC) s

/-- FLIPX's writes: pixel `(width-1-x, y)` of the snapshot at `(x, y)` (rule R143). -/
def flipxWrites (b : Buffer) : List PixelWrite :=
  (grid b.w b.h).map fun q => ⟨q.1, q.2, b.pixRead (b.w - 1 - q.1) q.2⟩

/-- FLIPX: the buffer is mirrored left to right (rule R143). -/
def execFlipx (rd : SlotIx) (s : State) : Result :=
  needBuffer rd s fun b => paint rd b (flipxWrites b) s

/-- FLIPY's writes: pixel `(x, height-1-y)` of the snapshot at `(x, y)` (rule R144). -/
def flipyWrites (b : Buffer) : List PixelWrite :=
  (grid b.w b.h).map fun q => ⟨q.1, q.2, b.pixRead q.1 (b.h - 1 - q.2)⟩

/-- FLIPY: the buffer is mirrored top to bottom (rule R144). -/
def execFlipy (rd : SlotIx) (s : State) : Result :=
  needBuffer rd s fun b => paint rd b (flipyWrites b) s

/-- The value SCROLL gives an exposed pixel: 0 (rule R145; the spec's decision D12, U3). -/
def scrollFill : Int := 0

/-- SCROLL's writes: pixel `(x - dx, y - dy)` of the snapshot where it exists, else 0 (rule R145). -/
def scrollWrites (b : Buffer) (dx dy : Int) : List PixelWrite :=
  (grid b.w b.h).map fun q =>
    let sx : Int := q.1 - dx
    let sy : Int := q.2 - dy
    ⟨q.1, q.2, if b.inBounds sx sy then b.pixRead sx.toNat sy.toNat else scrollFill⟩

/-- SCROLL: the picture moves by `(X, Y)`, without wrap; exposed pixels become 0 (rule R145). -/
def execScroll (rd : SlotIx) (s : State) : Result :=
  needBuffer rd s fun b => paint rd b (scrollWrites b s.opX s.opY) s

/-- REPLACE's writes: every pixel equal to `from` (`old`), compared as an integer, becomes `to` (`new`)
(rule R149). -/
def replaceWrites (b : Buffer) (old new : Int) : List PixelWrite :=
  ((grid b.w b.h).filter fun q => (b.pixRead q.1 q.2 : Int) == old).map fun q => ⟨q.1, q.2, new⟩

/-- REPLACE: `C` is `from`, `C2` is `to` (rule R149). -/
def execReplace (rd : SlotIx) (s : State) : Result :=
  needBuffer rd s fun b => paint rd b (replaceWrites b s.opC s.opC2) s

/-- The writes of the doubling commands into an `nw` by `nh` buffer: pixel `(x div kx, y div ky)` of the source at
`(x, y)`, with `kx`, `ky` the factors of the two axes (rules R146 to R148). -/
def doubledWrites (b : Buffer) (kx ky : Nat) : List PixelWrite :=
  (grid (kx * b.w) (ky * b.h)).map fun q => ⟨q.1, q.2, b.pixRead (q.1 / kx) (q.2 / ky)⟩

/-- The new buffer of the doubling commands: `B[RD] <- (valid 1, width nw, height nh, dc B[RS].dc, data zero)`, then
the pixel writes (rules R146 to R148). -/
def doubledBuffer (b : Buffer) (kx ky : Nat) : Buffer :=
  (Buffer.zeroed (kx * b.w) (ky * b.h) b.depth).writeAll (doubledWrites b kx ky)

/-- The shared body of DOUBLEDX, DOUBLEDY and DOUBLED: the checks of rule R146 in its order, then the new buffer. -/
def doubleInto (rd rs : SlotIx) (kx ky : Nat) (s : State) : Result :=
  needBuffer rs s fun b => needFree rd s
    (check (decide (Config.maxDim < kx * b.w) || decide (Config.maxDim < ky * b.h)) .dimRange s
      (install rd (doubledBuffer b kx ky) s))

/-- DOUBLEDX: each pixel becomes a block 2 wide and 1 high (rule R146). -/
def execDoubledx (rd rs : SlotIx) (s : State) : Result := doubleInto rd rs 2 1 s

/-- DOUBLEDY: each pixel becomes a block 1 wide and 2 high (rule R147). -/
def execDoubledy (rd rs : SlotIx) (s : State) : Result := doubleInto rd rs 1 2 s

/-- DOUBLED: each pixel becomes a block 2 wide and 2 high (rule R148). -/
def execDoubled (rd rs : SlotIx) (s : State) : Result := doubleInto rd rs 2 2 s

end Sys2Proof.Machine
end

