-- ==== Sys2Proof/Machine/System.lean ====
section
/-! DEFINITION. The system commands NOP, ALLOC, FREE, LDB, STB (`40_system.md` rules R90 to R94). -/

namespace Sys2Proof.Machine

/-- NOP: nothing beyond the word already stored in `CMD` (rule R90). -/
def execNop (s : State) : Result := .next s

/-- `W < 1 or W > MAX_DIM or H < 1 or H > MAX_DIM`: the condition of `DimRange` (rules R91, R188). -/
def dimsOutOfRange (w h : Int) : Bool := w < 1 || Config.maxDim < w || h < 1 || Config.maxDim < h

/-- ALLOC: a zero-filled buffer of width `W`, height `H` and the word's depth in a free slot (rule R91). -/
def execAlloc (rd : SlotIx) (dc : Depth) (s : State) : Result :=
  needFree rd s
    (check (dimsOutOfRange s.opW s.opH) .dimRange s
      (install rd (Buffer.zeroed s.opW.toNat s.opH.toNat dc) s))

/-- FREE: the slot becomes free; its fields lose their meaning (rules R30, R92). -/
def execFree (rd : SlotIx) (s : State) : Result :=
  needBuffer rd s fun _ => .next (s.setSlot rd none)

/-- `X < 0 or X ≥ len`: the condition of `OffsetRange` (rules R93, R94, R190). -/
def offsetOutOfRange (b : Buffer) (off : Int) : Bool := off < 0 || b.len ≤ off

/-- LDB: the raw byte at offset `X` (rule R93). -/
def execLdb (rd : SlotIx) (s : State) : Result :=
  needBuffer rd s fun b =>
    check (offsetOutOfRange b s.opX) .offsetRange s
      (answer (b.readByte s.opX.toNat).toNat s)

/-- STB: the low 8 bits of `C` at offset `X` (rule R94). -/
def execStb (rd : SlotIx) (s : State) : Result :=
  needBuffer rd s fun b =>
    check (offsetOutOfRange b s.opX) .offsetRange s
      (.next (s.setSlot rd (some (b.writeByte s.opX.toNat (lowByte s.opC)))))

end Sys2Proof.Machine
end

