-- ==== Sys2Proof/Machine/Dispatch.lean ====
section
/-! DEFINITION. One arm per command (rule R73): the run of a legal command whose word is already in `CMD`, with
`STATUS.FAULT` = 0 (rule R80). -/

namespace Sys2Proof.Machine

def exec (i : Instr) (s : State) : Host.Outcome State Fault Refusal :=
  match i with
  | .nop => Sys2Proof.Machine.execNop s
  | .alloc rd dc => Sys2Proof.Machine.execAlloc rd dc s
  | .free rd => Sys2Proof.Machine.execFree rd s
  | .ldb rd => Sys2Proof.Machine.execLdb rd s
  | .stb rd => Sys2Proof.Machine.execStb rd s
  | .xlut dc => Sys2Proof.Machine.execXlut dc s
  | .getpixel rd => Sys2Proof.Machine.execGetpixel rd s
  | .setpixel rd => Sys2Proof.Machine.execSetpixel rd s
  | .width rd => Sys2Proof.Machine.execWidth rd s
  | .height rd => Sys2Proof.Machine.execHeight rd s
  | .ismono rd => Sys2Proof.Machine.execIsmono rd s
  | .clone rd rs => Sys2Proof.Machine.execClone rd rs s
  | .copyfrom rd rs => Sys2Proof.Machine.execCopyfrom rd rs s
  | .fill rd => Sys2Proof.Machine.execFill rd s
  | .fillrect rd => Sys2Proof.Machine.execFillrect rd s
  | .flipx rd => Sys2Proof.Machine.execFlipx rd s
  | .flipy rd => Sys2Proof.Machine.execFlipy rd s
  | .scroll rd => Sys2Proof.Machine.execScroll rd s
  | .doubledx rd rs => Sys2Proof.Machine.execDoubledx rd rs s
  | .doubledy rd rs => Sys2Proof.Machine.execDoubledy rd rs s
  | .doubled rd rs => Sys2Proof.Machine.execDoubled rd rs s
  | .replace rd => Sys2Proof.Machine.execReplace rd s
  | .drawimage rd rs => Sys2Proof.Machine.execDrawimage rd rs s
  | .drawtransparent rd rs => Sys2Proof.Machine.execDrawtransparent rd rs s
  | .overlaps rd rs => Sys2Proof.Machine.execOverlaps rd rs s
  | .drawcore rd rs => Sys2Proof.Machine.execDrawcore rd rs s

end Sys2Proof.Machine
end

