-- ==== Sys2Proof/Machine/Flags.lean ====
section
/-! DEFINITION. The status bits. The PPE has no condition codes and no command sets a flag as a side effect
(`10_state.md` rule R21): what there is are the register images of `CTRL`, `STATUS` and `CAUSE`, with their
reserved bits, and the fault line. -/

namespace Sys2Proof.Machine

/-- What `CTRL` reads: bit 0 `STRICT`, bits [31:1] hardwired 0 (rules R24, R96). -/
def State.ctrlWord (s : State) : Word := BitVec.ofNat 32 s.strict.toNat

/-- A write of `CTRL` stores bit 0 of the written value and nothing else (rules R24, R95). -/
def State.writeCtrl (s : State) (v : Word) : State := { s with strict := v.getLsbD 0 }

/-- `STATUS.BUSY` reads 0 always (rule R25). -/
def busyBit : BitVec 1 := 0#1

/-- What `STATUS` reads: 30 zeros, `BUSY`, `FAULT` (rules R25, R96). -/
def State.statusWord (s : State) : Word := (0#30 ++ busyBit) ++ BitVec.ofBool s.fault

/-- What `CAUSE` reads: the cause code in bits [7:0], bits [31:8] 0 (rules R26, R96). -/
def State.causeWord (s : State) : Word := s.cause.zeroExtend 32

/-- The output line `fault`: its level equals `STATUS.FAULT` at all times (rule R197). -/
def State.faultLine (s : State) : Bool := s.fault

end Sys2Proof.Machine
end

