-- ==== Sys2Proof/Machine/HostAccess.lean ====
section
/-! DEFINITION. The host's register accesses and reset: the register map, `HostWrite`, `HostRead`, the execution of a
word written to `CMD`, and how the next operation of the host's program is found (`10_state.md` rules R20 to R29,
`30_encoding.md` rule R80, `40_system.md` rules R95, R96, `70_reset_and_hazards.md` rule R210). -/

namespace Sys2Proof.Machine

/-- The offset of a register in the block (rule R22). -/
def regOffset : RegName → Nat
  | .id => 0x00
  | .ctrl => 0x04
  | .status => 0x08
  | .cause => 0x0C
  | .fcmd => 0x10
  | .cmd => 0x14
  | .p i => 0x20 + 4 * i.val

/-- The register at an offset, where the map of rule R22 defines one. -/
def regAt (off : Nat) : Option RegName :=
  match off with
  | 0x00 => some .id
  | 0x04 => some .ctrl
  | 0x08 => some .status
  | 0x0C => some .cause
  | 0x10 => some .fcmd
  | 0x14 => some .cmd
  | 0x20 => some (.p 0)
  | 0x24 => some (.p 1)
  | 0x28 => some (.p 2)
  | 0x2C => some (.p 3)
  | 0x30 => some (.p 4)
  | 0x34 => some (.p 5)
  | 0x38 => some (.p 6)
  | 0x3C => some (.p 7)
  | _ => none

/-- Execution of a command word (rule R80): `CMD <- w`; a word that is no command raises `IllegalCmd`; else the
command runs. -/
def runCommand (w : Word) (s : State) : Result :=
  match decode w with
  | .error _ => raise .illegalCmd { s with cmd := w }
  | .ok i => exec i { s with cmd := w }

/-- A host write of `CMD`: executed while `STATUS.FAULT` = 0, discarded while it is 1 (rules R28, R80, R195). -/
def writeCmd (w : Word) (s : State) : Result :=
  if s.fault then .next s else runCommand w s

/-- `HostWrite` of a register (rule R95): the read-only registers ignore it (rule R22). -/
def hostWrite (r : RegName) (v : Word) (s : State) : Result :=
  match r with
  | .id => .next s
  | .ctrl => .next (s.writeCtrl v)
  | .status => .next s
  | .cause => .next s
  | .fcmd => .next s
  | .cmd => writeCmd v s
  | .p i => .next { s with regs := s.regs.set i v }

/-- What `HostRead` of a register returns (rule R96). -/
def hostReadValue (r : RegName) (s : State) : Word :=
  match r with
  | .id => Config.idValue
  | .ctrl => s.ctrlWord
  | .status => s.statusWord
  | .cause => s.causeWord
  | .fcmd => s.fcmd
  | .cmd => s.cmd
  | .p i => s.regs.get i

/-- `HostRead` of a register changes nothing in the engine; the host keeps the value (rule R96, log entry 2). -/
def hostRead (r : RegName) (s : State) : Result :=
  .next { s with reads := s.reads ++ [hostReadValue r s] }

/-- The host's index moves to its next operation (rule R20). -/
def State.advance (s : State) : State := { s with pc := s.pc + 1 }

/-- A register access of `bits` bits at offset `off`: refused by name where rule R29 gives it no meaning. -/
def access (bits off : Nat) (go : RegName → Result) : Result :=
  if bits ≠ 32 then .refused (.accessSize bits)
  else if off % 4 ≠ 0 then .refused (.misalignedAccess off)
  else
    match regAt off with
    | none => .refused (.undefinedOffset off)
    | some r => go r

/-- One operation of the host (rules R10, R95, R96, R210), after which its index has advanced by exactly 1, whether
or not the command it issued faulted (rule R20). -/
def perform (op : HostOp) (s : State) : Result :=
  match op with
  | .write bits off v => access bits off fun r => hostWrite r v s.advance
  | .read bits off => access bits off fun r => hostRead r s.advance
  | .rst => .next s.advance.applyReset

/-- The host's next operation, if its program has one left (rule R20). -/
def State.nextOp (s : State) : Option HostOp := s.program[s.pc]?

/-- Puts an operation at an index of a program; were the program shorter, harmless reads of `ID` fill it up. -/
def placeOp : List HostOp → Nat → HostOp → List HostOp
  | [], 0, op => [op]
  | [], n + 1, op => .read 32 (regOffset .id) :: placeOp [] n op
  | _ :: rest, 0, op => op :: rest
  | o :: rest, n + 1, op => o :: placeOp rest n op

/-- The host operation that issues a command word: a 32-bit write of `CMD` (rules R20, R77). -/
def commandWrite (w : Word) : HostOp := .write 32 (regOffset .cmd) w

end Sys2Proof.Machine
end

