-- ==== Sys2Proof/Machine/Step.lean ====
section
/-! DEFINITION. One step: the host's next operation (`10_state.md` rules R10, R20). -/

namespace Sys2Proof.Machine

/-- One step: the engine steps only when the host performs an operation; when the host's program has ended the engine
is idle and nothing changes (rules R10, R20, R37; log entry 4). -/
def step (s : State) : Host.Outcome State Fault Refusal :=
  match s.nextOp with
  | none => .next s
  | some op => perform op s

/-- The host's fixed name: `s` with the host's next operation replaced by a write of the command word to `CMD`. The
engine runs it unless it is halted (`STATUS.FAULT` = 1), when the write is discarded as rule R195 says. Stands for
the load of a program into the host (log entry 2). -/
def State.withFetchWord (s : State) (nbits w : Nat) : State :=
  { s with program := placeOp s.program s.pc (commandWrite (BitVec.ofNat 32 (w % 2 ^ nbits))) }

end Sys2Proof.Machine
end

