-- ==== Sys2Proof/Machine/Assembler.lean ====
section
/-! DEFINITION. The spec's assembly language (`30_encoding.md` rules R77, R78): its lines as the host operations they
stand for, its pseudo-instructions as their expansions, and how a line is written. Nothing the engine does rests on
this file: it says which host program a listing of the spec is. -/

namespace Sys2Proof.Machine

/-- A line of a program (rule R77). -/
inductive AsmLine where
  /-- `wr <reg>, <imm>` -/
  | wr (r : RegName) (imm : Int)
  /-- `rd <reg>` -/
  | rd (r : RegName)
  /-- a raw command, which uses the operand registers as they stand -/
  | raw (i : Instr)
  deriving DecidableEq, Repr

/-- The host operation of a line: `HostWrite(offset(reg), imm mod 2^32)`, `HostRead(offset(reg))`, or
`HostWrite(0x14, word)` with the word of rule R73 (rule R77). -/
def AsmLine.op : AsmLine → HostOp
  | .wr r imm => .write 32 (regOffset r) (BitVec.ofInt 32 imm)
  | .rd r => .read 32 (regOffset r)
  | .raw i => commandWrite (encode i)

/-- A pseudo-instruction: one `wr` per operand the command reads, in the order of rule R12's "reads" column, then the
raw command (rule R78). Nothing where the number of operands is not the command's. -/
def pseudo (i : Instr) (args : List Int) : Option (List AsmLine) :=
  if args.length = (operandReads i).length then
    some (((operandReads i).zip args).map (fun q => AsmLine.wr (.p q.1) q.2) ++ [.raw i])
  else none

/-- A listing as the host's program (rules R20, R77). -/
def assemble (lines : List AsmLine) : List HostOp := lines.map AsmLine.op

/-- The name of a register in a line (rules R22, R77). -/
def regText : RegName → String
  | .id => "ID"
  | .ctrl => "CTRL"
  | .status => "STATUS"
  | .cause => "CAUSE"
  | .fcmd => "FCMD"
  | .cmd => "CMD"
  | .p i => (["X", "Y", "W", "H", "C", "C2", "RES", "RESH"])[i.val]?.getD ""

/-- `b0` .. `b15` (rule R77). -/
def slotText (r : SlotIx) : String := "b" ++ toString r.val

/-- How a raw command is written, lower case, the written or created buffer first (rule R77). -/
def instrText : Instr → String
  | .nop => "nop"
  | .alloc rd dc => "alloc." ++ toString (bitsOf dc) ++ " " ++ slotText rd
  | .xlut dc => "xlut." ++ toString (bitsOf dc)
  | .free rd => "free " ++ slotText rd
  | .ldb rd => "ldb " ++ slotText rd
  | .stb rd => "stb " ++ slotText rd
  | .getpixel rd => "getpixel " ++ slotText rd
  | .setpixel rd => "setpixel " ++ slotText rd
  | .width rd => "width " ++ slotText rd
  | .height rd => "height " ++ slotText rd
  | .ismono rd => "ismono " ++ slotText rd
  | .clone rd rs => "clone " ++ slotText rd ++ ", " ++ slotText rs
  | .copyfrom rd rs => "copyfrom " ++ slotText rd ++ ", " ++ slotText rs
  | .fill rd => "fill " ++ slotText rd
  | .fillrect rd => "fillrect " ++ slotText rd
  | .flipx rd => "flipx " ++ slotText rd
  | .flipy rd => "flipy " ++ slotText rd
  | .scroll rd => "scroll " ++ slotText rd
  | .doubledx rd rs => "doubledx " ++ slotText rd ++ ", " ++ slotText rs
  | .doubledy rd rs => "doubledy " ++ slotText rd ++ ", " ++ slotText rs
  | .doubled rd rs => "doubled " ++ slotText rd ++ ", " ++ slotText rs
  | .replace rd => "replace " ++ slotText rd
  | .drawimage rd rs => "drawimage " ++ slotText rd ++ ", " ++ slotText rs
  | .drawtransparent rd rs => "drawtransparent " ++ slotText rd ++ ", " ++ slotText rs
  | .overlaps rd rs => "overlaps " ++ slotText rd ++ ", " ++ slotText rs
  | .drawcore rd rs => "drawcore " ++ slotText rd ++ ", " ++ slotText rs

/-- How a line is written (rule R77). -/
def AsmLine.text : AsmLine → String
  | .wr r imm => "wr " ++ regText r ++ ", " ++ toString imm
  | .rd r => "rd " ++ regText r
  | .raw i => instrText i

end Sys2Proof.Machine
end

