-- ==== Sys2Proof/Safety.lean ====
section
/-! DEFINITION. The terms the statements use: the invariant of the machine, which slots and operands a command names,
when each fault arises and in which order, and what it is for a command to repaint a buffer. Each is written from the
spec's own tables, apart from the meanings. -/

namespace Sys2Proof.Machine

/-! ### The invariant (rules R26 to R28, R31, R40, R20) -/

/-- Rule R31 of one buffer: a width and a height of at least 1 (at most 65535 by their 16 bits), and the data in
canonical form with no byte at or after `len(s)`, so that `data` is exactly `len(s)` bytes. -/
def Buffer.ok (b : Buffer) : Bool := 1 ≤ b.w && 1 ≤ b.h && b.data.wf && b.data.below b.len

/-- Rule R31 (a) to (c), of every valid slot. -/
def State.slotsOk (s : State) : Bool :=
  s.slots.toList.all fun o => match o with | none => true | some b => b.ok

/-- Rule R31 (d): the bytes of all valid slots together are at most `PM_CAPACITY`. -/
def State.capacityOk (s : State) : Bool :=
  match s.pmCapacity with
  | none => true
  | some c => s.used ≤ c

/-- Rules R26 to R28 and R195: without a fault `CAUSE` and `FCMD` are 0; with one `CAUSE` is one of 1 to 10 and `FCMD`
is the word `CMD` keeps. -/
def State.recordOk (s : State) : Bool :=
  if s.fault then (1#8 ≤ s.cause && s.cause ≤ 10#8) && s.fcmd == s.cmd
  else s.cause == 0#8 && s.fcmd == 0#32

/-- Rule R20: the host's index is at most the length of its program. -/
def State.indexOk (s : State) : Bool := s.pc ≤ s.program.length

/-- The invariant of the machine. -/
def State.inv (s : State) : Bool := s.slotsOk && s.capacityOk && s.recordOk && s.indexOk

/-! ### The bits of a command word and the writes of a listing (rules R70, R71, R77) -/

/-- `w[7:0]`, `w[11:8]`, `w[15:12]`, `w[17:16]` are the four numbers given, and `w[31:18]` is 0 (rules R70, R71). -/
def fieldsAre (w : Word) (op rd rs dc : Nat) : Prop :=
  w.toNat % 2 ^ 8 = op ∧ w.toNat / 2 ^ 8 % 2 ^ 4 = rd ∧ w.toNat / 2 ^ 12 % 2 ^ 4 = rs ∧ w.toNat / 2 ^ 16 % 2 ^ 2 = dc ∧
  w.toNat / 2 ^ 18 = 0

/-- `HostWrite(off, v mod 2^32)`: the host operation of a `wr` line (rule R77). -/
def operandWrite (off : Nat) (v : Int) : HostOp := .write 32 off (BitVec.ofInt 32 v)

/-! ### What a command names (rules R12, R33, R183, R184) -/

/-- The slot whose buffer a command may change, create or release; nothing for a command that changes no slot. -/
def destSlot : Instr → Option SlotIx
  | .alloc rd _ | .free rd | .stb rd | .setpixel rd | .clone rd _ | .copyfrom rd _ | .fill rd | .fillrect rd
  | .flipx rd | .flipy rd | .scroll rd | .doubledx rd _ | .doubledy rd _ | .doubled rd _ | .replace rd
  | .drawimage rd _ | .drawtransparent rd _ | .drawcore rd _ => some rd
  | .nop | .ldb _ | .xlut _ | .getpixel _ | .width _ | .height _ | .ismono _ | .overlaps _ _ => none

/-- The slots that must hold a buffer, by rule R183's two lists. -/
def existingSlots : Instr → List SlotIx
  | .free rd | .ldb rd | .stb rd | .getpixel rd | .setpixel rd | .width rd | .height rd | .ismono rd | .fill rd
  | .fillrect rd | .flipx rd | .flipy rd | .scroll rd | .replace rd => [rd]
  | .clone _ rs | .doubledx _ rs | .doubledy _ rs | .doubled _ rs => [rs]
  | .copyfrom rd rs | .drawimage rd rs | .drawtransparent rd rs | .overlaps rd rs | .drawcore rd rs => [rd, rs]
  | .nop | .alloc _ _ | .xlut _ => []

/-- The slot that is to receive a new buffer, by rule R184's list. -/
def createdSlot : Instr → Option SlotIx
  | .alloc rd _ | .clone rd _ | .doubledx rd _ | .doubledy rd _ | .doubled rd _ => some rd
  | .nop | .free _ | .ldb _ | .stb _ | .xlut _ | .getpixel _ | .setpixel _ | .width _ | .height _ | .ismono _
  | .copyfrom _ _ | .fill _ | .fillrect _ | .flipx _ | .flipy _ | .scroll _ | .replace _ | .drawimage _ _
  | .drawtransparent _ _ | .overlaps _ _ | .drawcore _ _ => none

/-- The shape a new buffer is to have, as exact integers: ALLOC's operands, the source's shape for CLONE, the doubled
shapes for DOUBLEDX, DOUBLEDY, DOUBLED (rules R91, R115, R146 to R148). -/
def createdDims (i : Instr) (s : State) : Option (Int × Int × Depth) :=
  match i with
  | .alloc _ dc => some (s.opW, s.opH, dc)
  | .clone _ rs => (s.slot rs).map fun b => ((b.w : Int), (b.h : Int), b.depth)
  | .doubledx _ rs => (s.slot rs).map fun b => (2 * (b.w : Int), (b.h : Int), b.depth)
  | .doubledy _ rs => (s.slot rs).map fun b => ((b.w : Int), 2 * (b.h : Int), b.depth)
  | .doubled _ rs => (s.slot rs).map fun b => (2 * (b.w : Int), 2 * (b.h : Int), b.depth)
  | .nop | .free _ | .ldb _ | .stb _ | .xlut _ | .getpixel _ | .setpixel _ | .width _ | .height _ | .ismono _
  | .copyfrom _ _ | .fill _ | .fillrect _ | .flipx _ | .flipy _ | .scroll _ | .replace _ | .drawimage _ _
  | .drawtransparent _ _ | .overlaps _ _ | .drawcore _ _ => none

/-! ### When a fault arises, and in which order (rules R181 to R191, R193) -/

/-- The condition of each fault for a decoded command, by the rules R182 to R191; a decoded command is never an
`IllegalCmd`. -/
def faultArises (c : Cause) (i : Instr) (s : State) : Prop :=
  match c with
  | .illegalCmd => False
  | .badSlot => ∃ r ∈ existingSlots i, s.slot r = none
  | .slotBusy => ∃ r, createdSlot i = some r ∧ s.slot r ≠ none
  | .alias_ => ∃ r, i = .drawimage r r ∨ i = .drawtransparent r r ∨ i = .drawcore r r
  | .dimMismatch => ∃ rd rs b o, i = .copyfrom rd rs ∧ s.slot rd = some b ∧ s.slot rs = some o ∧
      ¬(o.width = b.width ∧ o.height = b.height ∧ o.depth = b.depth)
  | .depthMismatch => ∃ rd rs b o, (i = .drawimage rd rs ∨ i = .drawtransparent rd rs) ∧ s.slot rd = some b ∧
      s.slot rs = some o ∧ s.strict = true ∧ o.depth ≠ b.depth
  | .dimRange => (∃ rd dc, i = .alloc rd dc ∧ (s.opW < 1 ∨ s.opH < 1)) ∨
      ((∀ rd rs, i ≠ .clone rd rs) ∧ ∃ w h d, createdDims i s = some (w, h, d) ∧
        ((Config.maxDim : Int) < w ∨ (Config.maxDim : Int) < h))
  | .coordRange => ∃ rd b, (i = .getpixel rd ∨ i = .setpixel rd) ∧ s.slot rd = some b ∧
      ¬(0 ≤ s.opX ∧ s.opX < b.w ∧ 0 ≤ s.opY ∧ s.opY < b.h)
  | .offsetRange => ∃ rd b, (i = .ldb rd ∨ i = .stb rd) ∧ s.slot rd = some b ∧ ¬(0 ≤ s.opX ∧ s.opX < b.len)
  | .allocFail => ∃ w h d c, createdDims i s = some (w, h, d) ∧ s.pmCapacity = some c ∧
      c < s.used + dataLen w.toNat h.toNat d

/-- The order of rule R193, by its numbers; `BadSlot` for `RD` and for `RS` are one fault. -/
def priority : Cause → Nat
  | .illegalCmd => 1
  | .badSlot => 2
  | .slotBusy => 4
  | .alias_ => 5
  | .dimMismatch => 6
  | .depthMismatch => 7
  | .dimRange => 8
  | .coordRange => 9
  | .offsetRange => 10
  | .allocFail => 11

/-! ### What a command does to a buffer and to the result registers -/

/-- `b'` is `b` with exactly the pixels repainted that `f` names: at a pixel `(x, y)` of the buffer with
`f x y = some v` it reads `v & mask(depth)`; every other pixel, and every padding lane, reads as before; a byte that
holds none of the repainted pixels is unchanged; and the shape is unchanged (rules R30, R46, R48, R49). -/
structure Buffer.Repaints (b b' : Buffer) (f : Nat → Nat → Option Int) : Prop where
  shape : b.SameShape b'
  painted : ∀ x y v, x < b.w → y < b.h → f x y = some v → b'.pixRead x y = truncate b.depth v
  kept : ∀ x y, x < b.w → y < b.h → f x y = none → b'.pixRead x y = b.pixRead x y
  padding : ∀ x y, b.w ≤ x → x < b.lanesPerRow → y < b.h → b'.pixRead x y = b.pixRead x y
  bytes : ∀ off, (∀ x y, x < b.w → y < b.h → f x y ≠ none → b.byteOff x y ≠ off) → b'.readByte off = b.readByte off

/-- `s` with a 32-bit result in `RES` and 0 in `RESH`, and nothing else changed (rule R13). -/
def State.withResult (s : State) (v : Word) : State :=
  { s with regs := { s.regs with res := v, resh := 0#32 } }

/-- A command that names a free slot where it needs a buffer takes `BadSlot` and does nothing else (rules R183,
R192). -/
def takesBadSlot (i : Instr) (r : SlotIx) (s : State) : Prop :=
  s.slot r = none → exec i s = .next (s.takeFault .badSlot)

end Sys2Proof.Machine
end

