-- ==== Sys2Proof/Certificates/Slice0/Obligations.lean ====
section
/-! DEFINITION. The statements for the provers, in the order of the spec's files: encoding, the step and the host's
accesses, the whole-machine rules, the faults, then the commands family by family, and the invariant. -/

open Sys2Proof Sys2Proof.Machine

/-! ## Encoding (`30_encoding.md`) -/

/-- The words rule R73 and vector V30-1 write out for some commands decode to them. -/
def Obligations.WrittenOutWordsDecode : Prop :=
  decode 0x00000000#32 = .ok .nop ∧ decode 0x00020201#32 = .ok (.alloc 2 .d4) ∧
  decode 0x00000702#32 = .ok (.free 7) ∧ decode 0x00030005#32 = .ok (.xlut .d8) ∧
  decode 0x00000211#32 = .ok (.setpixel 2) ∧ decode 0x00000315#32 = .ok (.clone 3 0) ∧
  decode 0x00001226#32 = .ok (.doubledy 2 1) ∧ decode 0x0000EF33#32 = .ok (.drawcore 15 14)

/-- Every command, with every operand at every value, is read back from its word. -/
def Obligations.DecodeReadsBackEveryEncodedCommand : Prop :=
  ∀ i : Instr, decode (encode i) = .ok i

/-- The other direction: a word that decodes to a command is that command's word, so no bit of a legal word is
dropped and no command has two words. -/
def Obligations.EveryLegalWordIsItsCommandsEncoding : Prop :=
  ∀ (w : Word) (i : Instr), decode w = .ok i → encode i = w

/-- Rule R74: a word is legal exactly when it matches one row of rule R73's table, which is when its zero field and
its unused fields are 0 and its `OP` is assigned; the rows are disjoint; and the row names the command decoded. -/
def Obligations.LegalWordsAreExactlyTheTablesRows : Prop :=
  ∀ w : Word,
    ((∃ i, decode w = .ok i) ↔ ∃ row ∈ opcodeTable, row.matches w = true) ∧
    ((∃ i, decode w = .ok i) ↔ (wordFields w).wellFormed = true) ∧
    (∀ row ∈ opcodeTable, ∀ row' ∈ opcodeTable, row.matches w = true → row'.matches w = true → row = row') ∧
    (∀ i, decode w = .ok i → ∀ row ∈ opcodeTable, row.matches w = true → row.mnemonic = i.mnemonic)

/-- Rule R78, its complete list: each of the fourteen pseudo-instructions is one `wr` per operand of its command, in the
list's order and to the list's registers, then the raw command. -/
def Obligations.PseudoInstructionsExpandToOperandWrites : Prop :=
  ∀ (rd rs : SlotIx) (dc : Depth) (a b c d e : Int),
    (pseudo (.alloc rd dc) [a, b]).map assemble =
      some [operandWrite 0x28 a, operandWrite 0x2C b, .write 32 0x14 (encode (.alloc rd dc))] ∧
    (pseudo (.ldb rd) [a]).map assemble = some [operandWrite 0x20 a, .write 32 0x14 (encode (.ldb rd))] ∧
    (pseudo (.stb rd) [a, b]).map assemble =
      some [operandWrite 0x20 a, operandWrite 0x30 b, .write 32 0x14 (encode (.stb rd))] ∧
    (pseudo (.xlut dc) [a]).map assemble = some [operandWrite 0x30 a, .write 32 0x14 (encode (.xlut dc))] ∧
    (pseudo (.getpixel rd) [a, b]).map assemble =
      some [operandWrite 0x20 a, operandWrite 0x24 b, .write 32 0x14 (encode (.getpixel rd))] ∧
    (pseudo (.setpixel rd) [a, b, c]).map assemble =
      some [operandWrite 0x20 a, operandWrite 0x24 b, operandWrite 0x30 c, .write 32 0x14 (encode (.setpixel rd))] ∧
    (pseudo (.fill rd) [a]).map assemble = some [operandWrite 0x30 a, .write 32 0x14 (encode (.fill rd))] ∧
    (pseudo (.fillrect rd) [a, b, c, d, e]).map assemble =
      some [operandWrite 0x20 a, operandWrite 0x24 b, operandWrite 0x28 c, operandWrite 0x2C d, operandWrite 0x30 e,
        .write 32 0x14 (encode (.fillrect rd))] ∧
    (pseudo (.scroll rd) [a, b]).map assemble =
      some [operandWrite 0x20 a, operandWrite 0x24 b, .write 32 0x14 (encode (.scroll rd))] ∧
    (pseudo (.replace rd) [a, b]).map assemble =
      some [operandWrite 0x30 a, operandWrite 0x34 b, .write 32 0x14 (encode (.replace rd))] ∧
    (pseudo (.drawimage rd rs) [a, b]).map assemble =
      some [operandWrite 0x20 a, operandWrite 0x24 b, .write 32 0x14 (encode (.drawimage rd rs))] ∧
    (pseudo (.drawtransparent rd rs) [a, b]).map assemble =
      some [operandWrite 0x20 a, operandWrite 0x24 b, .write 32 0x14 (encode (.drawtransparent rd rs))] ∧
    (pseudo (.overlaps rd rs) [a, b]).map assemble =
      some [operandWrite 0x20 a, operandWrite 0x24 b, .write 32 0x14 (encode (.overlaps rd rs))] ∧
    (pseudo (.drawcore rd rs) [a, b, c]).map assemble =
      some [operandWrite 0x20 a, operandWrite 0x24 b, operandWrite 0x30 c, .write 32 0x14 (encode (.drawcore rd rs))]

/-! ## The step, the host's accesses and reset (`10_state.md`, `40_system.md`, `70_reset_and_hazards.md`) -/

/-- A step at which the host writes a legal word to `CMD`, the engine not halted, is `exec` of the decoded command
with the word in `CMD` and the host's index moved on by one. -/
def Obligations.StepRunsTheDecodedCommand : Prop :=
  ∀ (s : State) (w : Word) (i : Instr), s.nextOp = some (.write 32 0x14 w) → s.fault = false → decode w = .ok i →
    step s = exec i { s with cmd := w, pc := s.pc + 1 }

/-- Rules R75, R182: a word that matches no row of the table raises `IllegalCmd` (1) and has no other effect. -/
def Obligations.IllegalWordsRaiseIllegalCmd : Prop :=
  ∀ (s : State) (w : Word), s.nextOp = some (.write 32 0x14 w) → s.fault = false →
    (∀ row ∈ opcodeTable, row.matches w = false) →
    step s = .next { s with cmd := w, pc := s.pc + 1, fault := true, cause := 1#8, fcmd := w }

/-- Rule R95, register by register: what a host write of each register does, and that it does nothing else. -/
def Obligations.HostWriteFollowsTheRegisterMap : Prop :=
  ∀ (s : State) (r : RegName) (v : Word), s.nextOp = some (.write 32 (regOffset r) v) →
    match r with
    | .id | .status | .cause | .fcmd => step s = .next { s with pc := s.pc + 1 }
    | .ctrl => step s = .next { s with pc := s.pc + 1, strict := v.getLsbD 0 }
    | .cmd => (s.fault = true → step s = .next { s with pc := s.pc + 1 }) ∧
        (s.fault = false → ∀ i, decode v = .ok i → step s = exec i { s with cmd := v, pc := s.pc + 1 }) ∧
        (s.fault = false → (∀ i, decode v ≠ .ok i) →
          step s = .next (State.takeFault { s with cmd := v, pc := s.pc + 1 } .illegalCmd))
    | .p i => ∃ regs, step s = .next { s with pc := s.pc + 1, regs := regs } ∧ regs.get i = v ∧
        ∀ j, j ≠ i → regs.get j = s.regs.get j

/-- Rules R23 to R28, R96, register by register: what a host read returns, with the reserved bits 0, and that it
changes nothing in the engine. -/
def Obligations.HostReadFollowsTheRegisterMap : Prop :=
  ∀ (s : State) (r : RegName), s.nextOp = some (.read 32 (regOffset r)) →
    ∃ v, step s = .next { s with pc := s.pc + 1, reads := s.reads ++ [v] } ∧
      match r with
      | .id => v = 0x50504501#32
      | .ctrl => v.getLsbD 0 = s.strict ∧ ∀ k, 0 < k → v.getLsbD k = false
      | .status => v.getLsbD 0 = s.fault ∧ ∀ k, 0 < k → v.getLsbD k = false
      | .cause => v.toNat = s.cause.toNat
      | .fcmd => v = s.fcmd
      | .cmd => v = s.cmd
      | .p i => v = s.regs.get i

/-- Rule R29: a host access at 0x18 or 0x1C, at 0x40 or above, at an offset that is no multiple of 4, or of a size other
than 32 bits is refused; every other one completes. -/
def Obligations.ExactlyTheUndefinedAccessesAreRefused : Prop :=
  ∀ (s : State) (bits off : Nat),
    (s.nextOp = some (.read bits off) ∨ ∃ v, s.nextOp = some (.write bits off v)) →
    ((off = 0x18 ∨ off = 0x1C ∨ 0x40 ≤ off ∨ off % 4 ≠ 0 ∨ bits ≠ 32) → ∃ why, step s = .refused why) ∧
    ((off ≠ 0x18 ∧ off ≠ 0x1C ∧ off < 0x40 ∧ off % 4 = 0 ∧ bits = 32) → ∃ t, step s = .next t)

/-- Rule R211 with the table of rule R37: what reset leaves, from any state; the capacity and the host's own side stay
(model's choice, log entry 3). -/
def Obligations.ResetClearsTheEngine : Prop :=
  ∀ s : State, s.nextOp = some .rst →
    ∃ t, step s = .next t ∧ (∀ i, t.regs.get i = 0#32) ∧ t.strict = false ∧ t.fault = false ∧ t.cause = 0#8 ∧
      t.fcmd = 0#32 ∧ t.cmd = 0#32 ∧ (∀ r, t.slot r = none) ∧
      t.pmCapacity = s.pmCapacity ∧ t.program = s.program ∧ t.pc = s.pc + 1 ∧ t.reads = s.reads

/-- The table of rule R37 of the model's fixed name `State.reset`, and rule R37's "the engine is idle after reset". -/
def Obligations.ResetStateIsTheResetTable : Prop :=
  (∀ i, State.reset.regs.get i = 0#32) ∧ State.reset.strict = false ∧ State.reset.fault = false ∧
  State.reset.cause = 0#8 ∧ State.reset.fcmd = 0#32 ∧ State.reset.cmd = 0#32 ∧ (∀ r, State.reset.slot r = none) ∧
  step State.reset = .next State.reset

/-- Rule R20: every access of the host moves its index on by exactly 1, whether or not its command faulted, and the
program is never changed. That the index moves on by 1 over a reset too is the model's reading (log entry 3: rule R20
lists no reset among the operations), and that nothing changes when the index is at the program's end is the model's
choice (log entry 4). -/
def Obligations.EveryOperationAdvancesTheIndexByOne : Prop :=
  ∀ s t : State, step s = .next t →
    t.program = s.program ∧ (s.nextOp ≠ none → t.pc = s.pc + 1) ∧ (s.nextOp = none → t = s)

/-- Rules R195, R196: while the engine is halted no operation but reset changes `CMD`, the fault record or any
buffer, or clears the fault. -/
def Obligations.OnlyResetLeavesTheHaltedState : Prop :=
  ∀ s t : State, s.fault = true → s.nextOp ≠ some .rst → step s = .next t →
    t.fault = true ∧ t.cause = s.cause ∧ t.fcmd = s.fcmd ∧ t.cmd = s.cmd ∧ ∀ r, t.slot r = s.slot r

/-- Rule R195: in the halted engine a host write of `CMD` is discarded, and host writes of `P[i]` and `CTRL` and host
reads work as usual. -/
def Obligations.TheHaltedEngineDiscardsCommands : Prop :=
  ∀ s : State, s.fault = true →
    (∀ w, s.nextOp = some (.write 32 0x14 w) → step s = .next { s with pc := s.pc + 1 }) ∧
    (∀ i v, s.nextOp = some (.write 32 (regOffset (.p i)) v) →
      step s = .next { s with pc := s.pc + 1, regs := s.regs.set i v }) ∧
    (∀ v, s.nextOp = some (.write 32 0x04 v) → step s = .next { s with pc := s.pc + 1, strict := v.getLsbD 0 }) ∧
    (∀ r, s.nextOp = some (.read 32 (regOffset r)) →
      ∃ v, step s = .next { s with pc := s.pc + 1, reads := s.reads ++ [v] })

/-! ## Whole-machine rules of the commands (`10_state.md`) -/

/-- Rule R222: every command terminates, completing or faulting; none stops the model. -/
def Obligations.EveryCommandTerminates : Prop :=
  ∀ (i : Instr) (s : State), ∃ t, exec i s = .next t

/-- Rule R12, the "writes" column: no command writes `P[0]` to `P[5]`; `RES` and `RESH` change only under the seven
commands of the table's right column; and no command writes `CTRL`, `CMD`, the capacity or the host's side. -/
def Obligations.CommandsWriteOnlyTheResultRegisters : Prop :=
  ∀ (i : Instr) (s t : State), exec i s = .next t →
    (t.regs.x = s.regs.x ∧ t.regs.y = s.regs.y ∧ t.regs.w = s.regs.w ∧ t.regs.h = s.regs.h ∧ t.regs.c = s.regs.c ∧
      t.regs.c2 = s.regs.c2) ∧
    (writesResult i = false → t.regs = s.regs) ∧
    t.strict = s.strict ∧ t.cmd = s.cmd ∧ t.pmCapacity = s.pmCapacity ∧ t.program = s.program ∧ t.pc = s.pc ∧
    t.reads = s.reads

/-- Rule R12, the "reads" column: with any other contents of the registers a command does not read, it does the same
to everything but the registers, and to the registers either nothing in both runs or the same result in both. -/
def Obligations.CommandsReadOnlyTheirOperandRegisters : Prop :=
  ∀ (i : Instr) (s : State) (regs : OpRegs), (∀ k ∈ operandReads i, regs.get k = s.regs.get k) →
    ∃ t t', exec i s = .next t ∧ exec i { s with regs := regs } = .next t' ∧
      { t' with regs := t.regs } = t ∧
      ((t.regs = s.regs ∧ t'.regs = regs) ∨
        ∃ lo hi, t.regs = { s.regs with res := lo, resh := hi } ∧ t'.regs = { regs with res := lo, resh := hi })

/-- Rules R32, R33: a command changes no slot but the one it names as `RD`, and the commands that name none as the
slot they write change none. -/
def Obligations.CommandsChangeOnlyTheirDestinationSlot : Prop :=
  ∀ (i : Instr) (s t : State) (r : SlotIx), exec i s = .next t → destSlot i ≠ some r → t.slot r = s.slot r

/-- Rules R30, R33, the life of a slot: it becomes valid only under a creating command that names it, free only under
FREE naming it, and while it is valid its width, height and depth are fixed. -/
def Obligations.SlotsLiveFromCreationToFree : Prop :=
  ∀ (i : Instr) (s t : State) (r : SlotIx), exec i s = .next t →
    (s.slot r = none → t.slot r ≠ none → createdSlot i = some r) ∧
    (s.slot r ≠ none → t.slot r = none → i = .free r) ∧
    (∀ b b', s.slot r = some b → t.slot r = some b' → b.SameShape b')

/-! ## Faults (`60_exceptions.md`) -/

/-- Rule R181: the cause codes, and what taking each fault records. -/
def Obligations.TakingAFaultRecordsItsCode : Prop :=
  ∀ (s : State) (c : Cause), s.takeFault c = { s with fault := true, cause := c.code, fcmd := s.cmd } ∧
    c.code = (match c with
      | .illegalCmd => 1#8 | .badSlot => 2#8 | .slotBusy => 3#8 | .alias_ => 4#8 | .dimMismatch => 5#8
      | .depthMismatch => 6#8 | .dimRange => 7#8 | .coordRange => 8#8 | .offsetRange => 9#8 | .allocFail => 10#8)

/-- Rule R193: of the conditions that hold, a command reports the first in the rule's order, and takes that fault. -/
def Obligations.TheFirstConditionInOrderIsTheFaultTaken : Prop :=
  ∀ (i : Instr) (s : State) (c : Cause), faultArises c i s →
    (∀ c', priority c' < priority c → ¬faultArises c' i s) → exec i s = .next (s.takeFault c)

/-- Rules R181, R194, the converse: where no condition holds the command completes and records nothing. -/
def Obligations.WithoutAConditionNoFaultIsTaken : Prop :=
  ∀ (i : Instr) (s : State), (∀ c, ¬faultArises c i s) →
    ∃ t, exec i s = .next t ∧ t.fault = s.fault ∧ t.cause = s.cause ∧ t.fcmd = s.fcmd

/-- Rules R192, R194: a command that faults has no partial effect: the state after is the state before with
`STATUS.FAULT`, `CAUSE` and `FCMD` updated, by a fault whose condition held. -/
def Obligations.FaultsArePrecise : Prop :=
  ∀ (i : Instr) (s t : State), s.fault = false → exec i s = .next t → t.fault = true →
    ∃ c : Cause, faultArises c i s ∧ t = { s with fault := true, cause := c.code, fcmd := s.cmd }

/-! ## Pixels in bytes (`20_memory.md`) -/

/-- Rules R41, R42, R44, R47 with `LANE_ORDER = LSB_FIRST`: a pixel is the `d`-bit field at bit `(x*d) mod 8` of the
byte at offset `y*rb + (x*d) div 8`, `rb = (width*d + 7) div 8`. -/
def Obligations.PixelsAreBitFieldsLeastSignificantFirst : Prop :=
  ∀ (b : Buffer) (x y : Nat),
    b.pixRead x y =
      (b.readByte (y * ((b.w * bitsOf b.depth + 7) / 8) + x * bitsOf b.depth / 8)).toNat /
        2 ^ (x * bitsOf b.depth % 8) % 2 ^ bitsOf b.depth

/-! ## System commands (`40_system.md`) -/

/-- Rule R90: NOP does nothing beyond the word already stored in `CMD`; and written to `CMD` of an engine that is not
halted it stores its word, 0. -/
def Obligations.NopOnlyStoresItsWord : Prop :=
  (∀ s, exec .nop s = .next s) ∧
  ∀ s : State, s.nextOp = some (.write 32 0x14 0#32) → s.fault = false →
    step s = .next { s with cmd := 0#32, pc := s.pc + 1 }

/-- Rule R91: ALLOC's three faults in its order, and the zero-filled buffer of the dimensions and the depth asked for,
in the slot and in no other place. -/
def Obligations.AllocCreatesAZeroFilledBuffer : Prop :=
  ∀ (s : State) (rd : SlotIx) (dc : Depth),
    (s.slot rd ≠ none → exec (.alloc rd dc) s = .next (s.takeFault .slotBusy)) ∧
    (s.slot rd = none → (s.opW < 1 ∨ 65535 < s.opW ∨ s.opH < 1 ∨ 65535 < s.opH) →
      exec (.alloc rd dc) s = .next (s.takeFault .dimRange)) ∧
    (s.slot rd = none → 1 ≤ s.opW → s.opW ≤ 65535 → 1 ≤ s.opH → s.opH ≤ 65535 →
      (∀ c, s.pmCapacity = some c → s.used + s.opH.toNat * ((s.opW.toNat * bitsOf dc + 7) / 8) ≤ c) →
      ∃ b : Buffer, exec (.alloc rd dc) s = .next (s.setSlot rd (some b)) ∧ (b.w : Int) = s.opW ∧ (b.h : Int) = s.opH ∧
        b.depth = dc ∧ ∀ off, b.readByte off = 0#8) ∧
    (s.slot rd = none → 1 ≤ s.opW → s.opW ≤ 65535 → 1 ≤ s.opH → s.opH ≤ 65535 →
      (∃ c, s.pmCapacity = some c ∧ c < s.used + s.opH.toNat * ((s.opW.toNat * bitsOf dc + 7) / 8)) →
      exec (.alloc rd dc) s = .next (s.takeFault .allocFail))

/-- Rule R92: FREE of a valid slot makes it free, lowers the bytes in use by its length, and does nothing else; of a
free slot it takes `BadSlot`. -/
def Obligations.FreeReleasesTheSlot : Prop :=
  ∀ (s : State) (rd : SlotIx), takesBadSlot (.free rd) rd s ∧
    ∀ b, s.slot rd = some b →
      exec (.free rd) s = .next (s.setSlot rd none) ∧ (s.setSlot rd none).used + b.len = s.used

/-- Rules R93, R190: LDB answers the whole byte at offset `X`, which must lie in `[0, len)`. -/
def Obligations.LdbAnswersTheRawByte : Prop :=
  ∀ (s : State) (rd : SlotIx), takesBadSlot (.ldb rd) rd s ∧
    ∀ b, s.slot rd = some b →
      (s.opX < 0 ∨ (b.len : Int) ≤ s.opX → exec (.ldb rd) s = .next (s.takeFault .offsetRange)) ∧
      (0 ≤ s.opX → s.opX < b.len →
        exec (.ldb rd) s = .next (s.withResult ((b.readByte s.opX.toNat).zeroExtend 32)))

/-- Rules R94, R190: STB stores the low 8 bits of `C` at offset `X`, which must lie in `[0, len)`, and changes no
other byte. -/
def Obligations.StbStoresOneByte : Prop :=
  ∀ (s : State) (rd : SlotIx), takesBadSlot (.stb rd) rd s ∧
    ∀ b, s.slot rd = some b → b.ok = true →
      (s.opX < 0 ∨ (b.len : Int) ≤ s.opX → exec (.stb rd) s = .next (s.takeFault .offsetRange)) ∧
      (0 ≤ s.opX → s.opX < b.len →
        ∃ b', exec (.stb rd) s = .next (s.setSlot rd (some b')) ∧ b.SameShape b' ∧
          ∀ off, b'.readByte off = if (off : Int) = s.opX then s.regs.c.extractLsb' 0 8 else b.readByte off)

/-! ## The expansion ROM (`42_expansion_rom.md`) -/

/-- Rules R131, R134: XLUT answers the entry of its table at the low byte of `C`: byte `k` of `RESH:RES` is lane `k`,
`(b >> k*d) & mask(d)`, and the bytes beyond the last lane are 0. -/
def Obligations.XlutAnswersTheLanes : Prop :=
  ∀ (s : State) (dc : Depth), ∃ lo hi : Word,
    exec (.xlut dc) s = .next { s with regs := { s.regs with res := lo, resh := hi } } ∧
    ∀ k, k < 8 → ((hi ++ lo : BitVec 64).extractLsb' (8 * k) 8).toNat =
      if k < 8 / bitsOf dc then (s.regs.c.toNat % 256) / 2 ^ (k * bitsOf dc) % 2 ^ bitsOf dc else 0

/-- Rule R132: the identity that ties the ROM to `PixRead`. -/
def Obligations.RomEntriesAreThePixelsOfTheByte : Prop :=
  ∀ (b : Buffer) (x y : Nat),
    (romEntry b.depth (b.readByte (b.byteOff x y)))[x % ppb b.depth]?.map BitVec.toNat = some (b.pixRead x y)

/-- Rule R135 and vector V42-3: repacking an expanded byte at its own depth gives the byte back. -/
def Obligations.RepackInvertsExpand : Prop :=
  ∀ (d : Depth) (b : Byte), repack d (romEntry d b) = b

/-- Rule R135: `Convert` gives for each lane of a source byte what `PixWrite` of the lane's value leaves at any pixel
of a buffer of the destination's depth, as `PixRead` returns it. -/
def Obligations.ConvertIsWhatPixWriteStores : Prop :=
  ∀ (src : Depth) (v : Byte) (k : Nat) (b : Buffer) (x y : Nat), k < ppb src → b.ok = true → x < b.w → y < b.h →
    (convertLanes src b.depth v)[k]?.map BitVec.toNat =
      some ((b.pixWrite x y ((laneRead src k v).toNat : Int)).pixRead x y)

/-! ## Packed Pixel Buffer commands (`41_pixel_buffer.md`) -/

/-- Rules R110, R189: GETPIXEL answers the pixel at `(X, Y)`, and takes `CoordRange` outside the buffer. -/
def Obligations.GetpixelAnswersThePixel : Prop :=
  ∀ (s : State) (rd : SlotIx), takesBadSlot (.getpixel rd) rd s ∧
    ∀ b, s.slot rd = some b →
      (s.opX < 0 ∨ (b.w : Int) ≤ s.opX ∨ s.opY < 0 ∨ (b.h : Int) ≤ s.opY →
        exec (.getpixel rd) s = .next (s.takeFault .coordRange)) ∧
      (0 ≤ s.opX → s.opX < b.w → 0 ≤ s.opY → s.opY < b.h →
        exec (.getpixel rd) s = .next (s.withResult (BitVec.ofNat 32 (b.pixRead s.opX.toNat s.opY.toNat))) ∧
        b.pixRead s.opX.toNat s.opY.toNat < 2 ^ bitsOf b.depth)

/-- Rules R48, R111, R189: SETPIXEL stores `C & mask` at `(X, Y)` and disturbs no other lane, and takes `CoordRange`
outside the buffer. -/
def Obligations.SetpixelStoresOneLane : Prop :=
  ∀ (s : State) (rd : SlotIx), takesBadSlot (.setpixel rd) rd s ∧
    ∀ b, s.slot rd = some b → b.ok = true →
      (s.opX < 0 ∨ (b.w : Int) ≤ s.opX ∨ s.opY < 0 ∨ (b.h : Int) ≤ s.opY →
        exec (.setpixel rd) s = .next (s.takeFault .coordRange)) ∧
      (0 ≤ s.opX → s.opX < b.w → 0 ≤ s.opY → s.opY < b.h →
        ∃ b', exec (.setpixel rd) s = .next (s.setSlot rd (some b')) ∧
          b.Repaints b' fun x y => if (x : Int) = s.opX ∧ (y : Int) = s.opY then some s.opC else none)

/-- Rules R112 to R114: the three accessors answer the width, the height, and whether the depth is 1. -/
def Obligations.AccessorsAnswerTheDescriptor : Prop :=
  ∀ (s : State) (rd : SlotIx),
    (takesBadSlot (.width rd) rd s ∧ takesBadSlot (.height rd) rd s ∧ takesBadSlot (.ismono rd) rd s) ∧
    ∀ b, s.slot rd = some b →
      exec (.width rd) s = .next (s.withResult (b.width.zeroExtend 32)) ∧
      exec (.height rd) s = .next (s.withResult (b.height.zeroExtend 32)) ∧
      exec (.ismono rd) s = .next (s.withResult (if b.depth = .d1 then 1#32 else 0#32))

/-- Rule R115: CLONE's faults in its order, and the byte-equal buffer in the free slot. -/
def Obligations.CloneCopiesTheBuffer : Prop :=
  ∀ (s : State) (rd rs : SlotIx), takesBadSlot (.clone rd rs) rs s ∧
    ∀ b, s.slot rs = some b →
      (s.slot rd ≠ none → exec (.clone rd rs) s = .next (s.takeFault .slotBusy)) ∧
      (s.slot rd = none → (∃ c, s.pmCapacity = some c ∧ c < s.used + b.len) →
        exec (.clone rd rs) s = .next (s.takeFault .allocFail)) ∧
      (s.slot rd = none → (∀ c, s.pmCapacity = some c → s.used + b.len ≤ c) →
        exec (.clone rd rs) s = .next (s.setSlot rd (some b)))

/-- Rule R116: COPYFROM's faults in its order, and every byte of `RS`, padding included, over `RD`. -/
def Obligations.CopyfromOverwritesEveryByte : Prop :=
  ∀ (s : State) (rd rs : SlotIx),
    (takesBadSlot (.copyfrom rd rs) rd s ∧ takesBadSlot (.copyfrom rd rs) rs s) ∧
    ∀ b o, s.slot rd = some b → s.slot rs = some o →
      (¬(o.width = b.width ∧ o.height = b.height ∧ o.depth = b.depth) →
        exec (.copyfrom rd rs) s = .next (s.takeFault .dimMismatch)) ∧
      (o.width = b.width → o.height = b.height → o.depth = b.depth →
        ∃ b', exec (.copyfrom rd rs) s = .next (s.setSlot rd (some b')) ∧ b.SameShape b' ∧
          ∀ off, off < b.len → b'.readByte off = o.readByte off)

/-! ## Rectangular operators (`43_rectangular.md`) -/

/-- Rule R141: FILL sets every pixel to `C & mask`; padding bits keep their value. -/
def Obligations.FillPaintsEveryPixel : Prop :=
  ∀ (s : State) (rd : SlotIx), takesBadSlot (.fill rd) rd s ∧
    ∀ b, s.slot rd = some b → b.ok = true →
      ∃ b', exec (.fill rd) s = .next (s.setSlot rd (some b')) ∧ b.Repaints b' fun _ _ => some s.opC

/-- Rule R150: FILLRECT writes exactly the pixels of `[X, X+W) × [Y, Y+H)` that lie in the buffer, for all operand
values, on exact integers. -/
def Obligations.FillrectPaintsTheClippedRectangle : Prop :=
  ∀ (s : State) (rd : SlotIx), takesBadSlot (.fillrect rd) rd s ∧
    ∀ b, s.slot rd = some b → b.ok = true →
      ∃ b', exec (.fillrect rd) s = .next (s.setSlot rd (some b')) ∧
        b.Repaints b' fun x y =>
          if s.opX ≤ x ∧ (x : Int) < s.opX + s.opW ∧ s.opY ≤ y ∧ (y : Int) < s.opY + s.opH then some s.opC else none

/-- Rule R142: FILLRECT equals the golden loop "for every `(i,j)` in `[0,w) × [0,h)`, `setPixel(x+i, y+j, color)`"
with the writes outside the buffer dropped, whatever the operands; of a free slot it takes `BadSlot`. -/
def Obligations.FillrectEqualsTheGoldenLoop : Prop :=
  ∀ (s : State) (rd : SlotIx), takesBadSlot (.fillrect rd) rd s ∧
    ∀ b, s.slot rd = some b → b.ok = true →
      exec (.fillrect rd) s =
        .next (s.setSlot rd (some (b.writeAll (fillrectGolden s.opX s.opY s.opW s.opH s.opC))))

/-- Rule R141's corner case: FILL equals FILLRECT with `X` = `Y` = 0, `W` = width, `H` = height. -/
def Obligations.FillEqualsFillrectOfTheWholeBuffer : Prop :=
  ∀ (s : State) (rd : SlotIx) (b : Buffer), s.slot rd = some b → s.opX = 0 → s.opY = 0 → s.opW = b.w → s.opH = b.h →
    exec (.fill rd) s = exec (.fillrect rd) s ∧ ∃ t, exec (.fill rd) s = .next t

/-- Rule R143: FLIPX puts the pixel of `(width-1-x, y)` at `(x, y)`. -/
def Obligations.FlipxMirrorsEachRow : Prop :=
  ∀ (s : State) (rd : SlotIx), takesBadSlot (.flipx rd) rd s ∧
    ∀ b, s.slot rd = some b → b.ok = true →
      ∃ b', exec (.flipx rd) s = .next (s.setSlot rd (some b')) ∧
        b.Repaints b' fun x y => some (b.pixRead (b.w - 1 - x) y)

/-- Rule R144: FLIPY puts the pixel of `(x, height-1-y)` at `(x, y)`. -/
def Obligations.FlipyMirrorsTheRows : Prop :=
  ∀ (s : State) (rd : SlotIx), takesBadSlot (.flipy rd) rd s ∧
    ∀ b, s.slot rd = some b → b.ok = true →
      ∃ b', exec (.flipy rd) s = .next (s.setSlot rd (some b')) ∧
        b.Repaints b' fun x y => some (b.pixRead x (b.h - 1 - y))

/-- Rules R143, R144 and property S1: FLIPX twice, and FLIPY twice, is the state it started from, byte for byte. -/
def Obligations.FlippingTwiceIsTheIdentity : Prop :=
  ∀ (s : State) (rd : SlotIx) (b : Buffer), s.slot rd = some b → b.ok = true →
    (∃ t, exec (.flipx rd) s = .next t ∧ exec (.flipx rd) t = .next s) ∧
    (∃ t, exec (.flipy rd) s = .next t ∧ exec (.flipy rd) t = .next s)

/-- Rule R145: SCROLL moves the pixel of `(x - X, y - Y)` to `(x, y)` where it exists, and 0 elsewhere. -/
def Obligations.ScrollShiftsAndExposesZero : Prop :=
  ∀ (s : State) (rd : SlotIx), takesBadSlot (.scroll rd) rd s ∧
    ∀ b, s.slot rd = some b → b.ok = true →
      ∃ b', exec (.scroll rd) s = .next (s.setSlot rd (some b')) ∧
        b.Repaints b' fun x y =>
          if 0 ≤ x - s.opX ∧ x - s.opX < b.w ∧ 0 ≤ y - s.opY ∧ y - s.opY < b.h
          then some (b.pixRead (x - s.opX).toNat (y - s.opY).toNat) else some 0

/-- Rules R146 to R148: the doubling commands' success: a buffer of the source's depth, `kx` times as wide and `ky`
times as high, each source pixel a block of `kx` by `ky`, padding bits 0. -/
def Obligations.DoublingReplicatesEachPixel : Prop :=
  ∀ (s : State) (rd rs : SlotIx) (kx ky : Nat) (i : Instr),
    (i = .doubledx rd rs ∧ kx = 2 ∧ ky = 1 ∨ i = .doubledy rd rs ∧ kx = 1 ∧ ky = 2 ∨
      i = .doubled rd rs ∧ kx = 2 ∧ ky = 2) →
    takesBadSlot i rs s ∧
    ∀ b, s.slot rs = some b →
      (s.slot rd ≠ none → exec i s = .next (s.takeFault .slotBusy)) ∧
      (s.slot rd = none → (65535 < kx * b.w ∨ 65535 < ky * b.h) → exec i s = .next (s.takeFault .dimRange)) ∧
      (s.slot rd = none → kx * b.w ≤ 65535 → ky * b.h ≤ 65535 →
        (∃ c, s.pmCapacity = some c ∧ c < s.used + dataLen (kx * b.w) (ky * b.h) b.depth) →
        exec i s = .next (s.takeFault .allocFail)) ∧
      (s.slot rd = none → kx * b.w ≤ 65535 → ky * b.h ≤ 65535 →
        (∀ c, s.pmCapacity = some c → s.used + dataLen (kx * b.w) (ky * b.h) b.depth ≤ c) →
        ∃ b' : Buffer, exec i s = .next (s.setSlot rd (some b')) ∧ b'.w = kx * b.w ∧ b'.h = ky * b.h ∧ b'.depth = b.depth ∧
          (∀ x y, x < b'.w → y < b'.h → b'.pixRead x y = b.pixRead (x / kx) (y / ky)) ∧
          ∀ x y, b'.w ≤ x → x < b'.lanesPerRow → y < b'.h → b'.pixRead x y = 0)

/-- Rule R148's corner case: DOUBLED into a free slot gives the buffer, byte for byte, that DOUBLEDX into a second
free slot followed by DOUBLEDY of that into a third gives, and the buffer that the reverse order gives; where the
dimensions are legal and the capacity has room for the two buffers of either way. -/
def Obligations.DoubledIsDoubledxThenDoubledy : Prop :=
  ∀ (s : State) (rs d x y : SlotIx) (b : Buffer), s.slot rs = some b →
    s.slot d = none → s.slot x = none → s.slot y = none → x ≠ y → 2 * b.w ≤ 65535 → 2 * b.h ≤ 65535 →
    (∀ c, s.pmCapacity = some c →
      s.used + dataLen (2 * b.w) b.h b.depth + dataLen (2 * b.w) (2 * b.h) b.depth ≤ c ∧
      s.used + dataLen b.w (2 * b.h) b.depth + dataLen (2 * b.w) (2 * b.h) b.depth ≤ c) →
    ∃ t u v u' v', exec (.doubled d rs) s = .next t ∧
      exec (.doubledx x rs) s = .next u ∧ exec (.doubledy y x) u = .next v ∧
      exec (.doubledy x rs) s = .next u' ∧ exec (.doubledx y x) u' = .next v' ∧
      t.slot d ≠ none ∧ v.slot y = t.slot d ∧ v'.slot y = t.slot d

/-- Rule R149: REPLACE rewrites every pixel equal to `C`, as an integer, to `C2 & mask`, and no other. -/
def Obligations.ReplaceRewritesTheMatchingPixels : Prop :=
  ∀ (s : State) (rd : SlotIx), takesBadSlot (.replace rd) rd s ∧
    ∀ b, s.slot rd = some b → b.ok = true →
      ∃ b', exec (.replace rd) s = .next (s.setSlot rd (some b')) ∧
        b.Repaints b' fun x y => if (b.pixRead x y : Int) = s.opC then some s.opC2 else none

/-! ## Composition (`44_composition.md`) -/

/-- Rules R160, R161, R165: DRAWIMAGE writes every source pixel at `(X + i, Y + j)`, masked to the destination's
depth and clipped; its faults in rule R160's order. -/
def Obligations.DrawimageCopiesEverySourcePixel : Prop :=
  ∀ (s : State) (rd rs : SlotIx),
    (takesBadSlot (.drawimage rd rs) rd s ∧ takesBadSlot (.drawimage rd rs) rs s) ∧
    ∀ b o, s.slot rd = some b → s.slot rs = some o →
      (rd = rs → exec (.drawimage rd rs) s = .next (s.takeFault .alias_)) ∧
      (rd ≠ rs → s.strict = true → o.depth ≠ b.depth →
        exec (.drawimage rd rs) s = .next (s.takeFault .depthMismatch)) ∧
      (rd ≠ rs → (s.strict = false ∨ o.depth = b.depth) → b.ok = true →
        ∃ b', exec (.drawimage rd rs) s = .next (s.setSlot rd (some b')) ∧
          b.Repaints b' fun x y =>
            if 0 ≤ x - s.opX ∧ x - s.opX < o.w ∧ 0 ≤ y - s.opY ∧ y - s.opY < o.h
            then some (o.pixRead (x - s.opX).toNat (y - s.opY).toNat) else none)

/-- Rules R160, R162, R165: DRAWTRANSPARENT writes the non-zero source pixels only; the test is on the source's value,
before the destination's mask. -/
def Obligations.DrawtransparentSkipsZeroPixels : Prop :=
  ∀ (s : State) (rd rs : SlotIx),
    (takesBadSlot (.drawtransparent rd rs) rd s ∧ takesBadSlot (.drawtransparent rd rs) rs s) ∧
    ∀ b o, s.slot rd = some b → s.slot rs = some o →
      (rd = rs → exec (.drawtransparent rd rs) s = .next (s.takeFault .alias_)) ∧
      (rd ≠ rs → s.strict = true → o.depth ≠ b.depth →
        exec (.drawtransparent rd rs) s = .next (s.takeFault .depthMismatch)) ∧
      (rd ≠ rs → (s.strict = false ∨ o.depth = b.depth) → b.ok = true →
        ∃ b', exec (.drawtransparent rd rs) s = .next (s.setSlot rd (some b')) ∧
          b.Repaints b' fun x y =>
            if (0 ≤ x - s.opX ∧ x - s.opX < o.w ∧ 0 ≤ y - s.opY ∧ y - s.opY < o.h) ∧
              o.pixRead (x - s.opX).toNat (y - s.opY).toNat ≠ 0
            then some (o.pixRead (x - s.opX).toNat (y - s.opY).toNat) else none)

/-- Rule R164: DRAWCORE writes `C & mask` at every non-zero source pixel, for any pair of depths whatever `STRICT`
is. -/
def Obligations.DrawcoreStencilsInOneColour : Prop :=
  ∀ (s : State) (rd rs : SlotIx),
    (takesBadSlot (.drawcore rd rs) rd s ∧ takesBadSlot (.drawcore rd rs) rs s) ∧
    ∀ b o, s.slot rd = some b → s.slot rs = some o →
      (rd = rs → exec (.drawcore rd rs) s = .next (s.takeFault .alias_)) ∧
      (rd ≠ rs → b.ok = true →
        ∃ b', exec (.drawcore rd rs) s = .next (s.setSlot rd (some b')) ∧
          b.Repaints b' fun x y =>
            if (0 ≤ x - s.opX ∧ x - s.opX < o.w ∧ 0 ≤ y - s.opY ∧ y - s.opY < o.h) ∧
              o.pixRead (x - s.opX).toNat (y - s.opY).toNat ≠ 0
            then some s.opC else none)

/-- Rule R163: OVERLAPS answers whether the two rectangles meet; `RD` = `RS` is allowed and nothing but the result
changes. -/
def Obligations.OverlapsComparesTheRectangles : Prop :=
  ∀ (s : State) (rd rs : SlotIx),
    (takesBadSlot (.overlaps rd rs) rd s ∧ takesBadSlot (.overlaps rd rs) rs s) ∧
    ∀ b o, s.slot rd = some b → s.slot rs = some o →
      exec (.overlaps rd rs) s = .next (s.withResult
        (if s.opX < b.w ∧ s.opY < b.h ∧ 0 < s.opX + o.w ∧ 0 < s.opY + o.h then 1#32 else 0#32))

/-- Rule R167: OVERLAPS answers 0 exactly when every pixel of the would-be blit is clipped away, and then each of the
three DRAW commands, where it takes no fault, leaves the state as it is. -/
def Obligations.OverlapsZeroMeansDrawingDoesNothing : Prop :=
  ∀ (s : State) (rd rs : SlotIx) (b o : Buffer), s.slot rd = some b → s.slot rs = some o → b.ok = true → o.ok = true →
    (exec (.overlaps rd rs) s = .next (s.withResult 0#32) ↔
      ∀ i j : Nat, i < o.w → j < o.h → b.inBounds (s.opX + i) (s.opY + j) = false) ∧
    (exec (.overlaps rd rs) s = .next (s.withResult 0#32) → rd ≠ rs →
      exec (.drawcore rd rs) s = .next s ∧
      (s.strict = false ∨ o.depth = b.depth →
        exec (.drawimage rd rs) s = .next s ∧ exec (.drawtransparent rd rs) s = .next s))

/-! ## The invariant -/

/-- The invariant holds at reset, and at reset with any capacity. -/
def Obligations.InvariantHoldsAtReset : Prop :=
  State.reset.inv = true ∧ ∀ capacity, (State.resetWith capacity).inv = true

/-- Every step keeps the invariant: rule R31's dimensions and lengths, canonical memory with no byte outside a
buffer, the capacity never exceeded, the fault record as rules R26 to R28 and R195 say it reads, and the host's index
inside its program. -/
def Obligations.EveryStepKeepsTheInvariant : Prop :=
  ∀ s t : State, s.inv = true → step s = .next t → t.inv = true

/-! ## The fields of a command word (`30_encoding.md` rules R70, R71, R73) -/

/-- Rules R70, R71, R73, for every word and every command: the word decodes to the command exactly when its fields are
the command's `OP`, `RD`, `RS` and `DC`, the depth of code `n` is `1 << n`, and every field the command does not use
and bits [31:18] are 0. -/
def Obligations.DecodedOperandsAreTheFieldsOfTheWord : Prop :=
  ∀ (w : Word) (i : Instr), decode w = .ok i ↔
    match i with
    | .nop => fieldsAre w 0x00 0 0 0
    | .alloc rd dc => ∃ n, bitsOf dc = 2 ^ n ∧ fieldsAre w 0x01 rd.val 0 n
    | .free rd => fieldsAre w 0x02 rd.val 0 0
    | .ldb rd => fieldsAre w 0x03 rd.val 0 0
    | .stb rd => fieldsAre w 0x04 rd.val 0 0
    | .xlut dc => ∃ n, bitsOf dc = 2 ^ n ∧ fieldsAre w 0x05 0 0 n
    | .getpixel rd => fieldsAre w 0x10 rd.val 0 0
    | .setpixel rd => fieldsAre w 0x11 rd.val 0 0
    | .width rd => fieldsAre w 0x12 rd.val 0 0
    | .height rd => fieldsAre w 0x13 rd.val 0 0
    | .ismono rd => fieldsAre w 0x14 rd.val 0 0
    | .clone rd rs => fieldsAre w 0x15 rd.val rs.val 0
    | .copyfrom rd rs => fieldsAre w 0x16 rd.val rs.val 0
    | .fill rd => fieldsAre w 0x20 rd.val 0 0
    | .fillrect rd => fieldsAre w 0x21 rd.val 0 0
    | .flipx rd => fieldsAre w 0x22 rd.val 0 0
    | .flipy rd => fieldsAre w 0x23 rd.val 0 0
    | .scroll rd => fieldsAre w 0x24 rd.val 0 0
    | .doubledx rd rs => fieldsAre w 0x25 rd.val rs.val 0
    | .doubledy rd rs => fieldsAre w 0x26 rd.val rs.val 0
    | .doubled rd rs => fieldsAre w 0x27 rd.val rs.val 0
    | .replace rd => fieldsAre w 0x28 rd.val 0 0
    | .drawimage rd rs => fieldsAre w 0x30 rd.val rs.val 0
    | .drawtransparent rd rs => fieldsAre w 0x31 rd.val rs.val 0
    | .overlaps rd rs => fieldsAre w 0x32 rd.val rs.val 0
    | .drawcore rd rs => fieldsAre w 0x33 rd.val rs.val 0
end

