-- ==== Sys2Proof/Laws/Decode.lean ====
section
/-! SUPPORT. The fields of a command word: taking a word apart and putting it together are inverse, and the mask
test of an opcode row is a test of fields. -/

namespace Sys2Proof

/-- The five fields hold the whole word (rule R70). -/
@[simp] theorem fieldsWord_wordFields (w : Word) : fieldsWord (wordFields w) = w := by
  apply BitVec.eq_of_getLsbD_eq
  intro i hi
  simp only [wordFields, fieldsWord, BitVec.getLsbD_append, BitVec.getLsbD_extractLsb']
  have key : ∀ k n, i < n + k → k ≤ i → (decide (i - k < n) && BitVec.getLsbD w (k + (i - k))) = w.getLsbD i := by
    intro k n h1 h2
    rw [Nat.add_sub_cancel' h2]
    simp
    omega
  repeat' split
  · simpa using key 0 8 (by omega) (by omega)
  · exact key 8 4 (by omega) (by omega)
  · exact key 12 4 (by omega) (by omega)
  · exact key 16 2 (by omega) (by omega)
  · exact key 18 14 (by omega) (by omega)

/-- A field of a word put together is the field it was put together from (rules R70, R71). -/
@[simp] theorem wordFields_fieldsWord (f : Fields) : wordFields (fieldsWord f) = f := by
  obtain ⟨op, rd, rs, dc, zero⟩ := f
  simp only [wordFields, fieldsWord, Fields.mk.injEq]
  refine ⟨?_, ?_, ?_, ?_, ?_⟩ <;>
    (apply BitVec.eq_of_getLsbD_eq; intro i hi
     simp only [BitVec.getLsbD_append, BitVec.getLsbD_extractLsb', hi, decide_true, Bool.true_and])
  · repeat rw [if_pos (by omega)]
    simp
  · rw [if_pos (by omega), if_pos (by omega), if_pos (by omega), if_neg (by omega), Nat.add_sub_cancel_left]
  · rw [if_pos (by omega), if_pos (by omega), if_neg (by omega)]; simp
  · rw [if_pos (by omega), if_neg (by omega)]; simp
  · rw [if_neg (by omega)]; simp

/-- Words are equal exactly when their fields are. -/
theorem fieldsWord_inj (f g : Fields) : fieldsWord f = fieldsWord g ↔ f = g :=
  ⟨fun h => by simpa using congrArg wordFields h, fun h => by rw [h]⟩

/-- Two words' bitwise and is taken field by field, so a row's mask test is a test of each field (rule R73). -/
theorem fieldsWord_and (f g : Fields) :
    fieldsWord f &&& fieldsWord g =
      fieldsWord ⟨f.op &&& g.op, f.rd &&& g.rd, f.rs &&& g.rs, f.dc &&& g.dc, f.zero &&& g.zero⟩ := by
  simp only [fieldsWord]
  apply BitVec.eq_of_getLsbD_eq
  intro i hi
  simp only [BitVec.getLsbD_and, BitVec.getLsbD_append]
  repeat' split
  all_goals simp

/-- A row's mask test, said of fields: the pattern and the mask are themselves words made of fields. -/
theorem OpcodeRow.matches_iff (mnemonic : String) (w : Word) (pattern mask : Fields) :
    OpcodeRow.matches ⟨mnemonic, fieldsWord pattern, fieldsWord mask⟩ w = true ↔
      (wordFields w).op &&& mask.op = pattern.op ∧ (wordFields w).rd &&& mask.rd = pattern.rd ∧
      (wordFields w).rs &&& mask.rs = pattern.rs ∧ (wordFields w).dc &&& mask.dc = pattern.dc ∧
      (wordFields w).zero &&& mask.zero = pattern.zero := by
  rw [OpcodeRow.matches, beq_iff_eq]
  conv_lhs => rw [← fieldsWord_wordFields w, fieldsWord_and, fieldsWord_inj]
  rw [Fields.mk.injEq]

@[simp] theorem Depth.ofCode_code (d : Depth) : Depth.ofCode d.code = d := by cases d <;> rfl

/-- All four codes are legal, each the code of one depth (rule R71). -/
@[simp] theorem Depth.code_ofCode (c : BitVec 2) : (Depth.ofCode c).code = c := by
  revert c; decide

@[simp] theorem slotOf_ofFin (r : SlotIx) : slotOf (BitVec.ofFin r) = r := rfl
@[simp] theorem ofFin_slotOf (r : BitVec 4) : BitVec.ofFin (slotOf r) = r := rfl

/-- Decoding an encoded command is decoding its fields. -/
theorem decode_encode (i : Instr) : decode (encode i) = decodeFields i.fields := by
  rw [decode, encode, wordFields_fieldsWord]

end Sys2Proof
end

