-- ==== Sys2Proof/Laws/State.lean ====
section
/-! SUPPORT. One lemma per field per update of the state, each true by rfl, so that no later proof unfolds a record
update; what a slot holds after each update; and how many bytes are in use. -/

namespace Sys2Proof.Machine

/-! ### setSlot -/

@[simp] theorem State.setSlot_regs (s : State) (r : SlotIx) (b : Option Buffer) : (s.setSlot r b).regs = s.regs := rfl
@[simp] theorem State.setSlot_strict (s : State) (r : SlotIx) (b : Option Buffer) :
    (s.setSlot r b).strict = s.strict := rfl
@[simp] theorem State.setSlot_fault (s : State) (r : SlotIx) (b : Option Buffer) :
    (s.setSlot r b).fault = s.fault := rfl
@[simp] theorem State.setSlot_cause (s : State) (r : SlotIx) (b : Option Buffer) :
    (s.setSlot r b).cause = s.cause := rfl
@[simp] theorem State.setSlot_fcmd (s : State) (r : SlotIx) (b : Option Buffer) : (s.setSlot r b).fcmd = s.fcmd := rfl
@[simp] theorem State.setSlot_cmd (s : State) (r : SlotIx) (b : Option Buffer) : (s.setSlot r b).cmd = s.cmd := rfl
@[simp] theorem State.setSlot_slots (s : State) (r : SlotIx) (b : Option Buffer) :
    (s.setSlot r b).slots = s.slots.set r b := rfl
@[simp] theorem State.setSlot_pmCapacity (s : State) (r : SlotIx) (b : Option Buffer) :
    (s.setSlot r b).pmCapacity = s.pmCapacity := rfl
@[simp] theorem State.setSlot_program (s : State) (r : SlotIx) (b : Option Buffer) :
    (s.setSlot r b).program = s.program := rfl
@[simp] theorem State.setSlot_pc (s : State) (r : SlotIx) (b : Option Buffer) : (s.setSlot r b).pc = s.pc := rfl
@[simp] theorem State.setSlot_reads (s : State) (r : SlotIx) (b : Option Buffer) :
    (s.setSlot r b).reads = s.reads := rfl

/-! ### takeFault -/

@[simp] theorem State.takeFault_regs (s : State) (c : Cause) : (s.takeFault c).regs = s.regs := rfl
@[simp] theorem State.takeFault_strict (s : State) (c : Cause) : (s.takeFault c).strict = s.strict := rfl
@[simp] theorem State.takeFault_fault (s : State) (c : Cause) : (s.takeFault c).fault = true := rfl
@[simp] theorem State.takeFault_cause (s : State) (c : Cause) : (s.takeFault c).cause = c.code := rfl
@[simp] theorem State.takeFault_fcmd (s : State) (c : Cause) : (s.takeFault c).fcmd = s.cmd := rfl
@[simp] theorem State.takeFault_cmd (s : State) (c : Cause) : (s.takeFault c).cmd = s.cmd := rfl
@[simp] theorem State.takeFault_slots (s : State) (c : Cause) : (s.takeFault c).slots = s.slots := rfl
@[simp] theorem State.takeFault_pmCapacity (s : State) (c : Cause) : (s.takeFault c).pmCapacity = s.pmCapacity := rfl
@[simp] theorem State.takeFault_program (s : State) (c : Cause) : (s.takeFault c).program = s.program := rfl
@[simp] theorem State.takeFault_pc (s : State) (c : Cause) : (s.takeFault c).pc = s.pc := rfl
@[simp] theorem State.takeFault_reads (s : State) (c : Cause) : (s.takeFault c).reads = s.reads := rfl

/-! ### setRes64 -/

@[simp] theorem State.setRes64_regs (s : State) (v : BitVec 64) :
    (s.setRes64 v).regs = { s.regs with res := v.extractLsb' 0 32, resh := v.extractLsb' 32 32 } := rfl
@[simp] theorem State.setRes64_strict (s : State) (v : BitVec 64) : (s.setRes64 v).strict = s.strict := rfl
@[simp] theorem State.setRes64_fault (s : State) (v : BitVec 64) : (s.setRes64 v).fault = s.fault := rfl
@[simp] theorem State.setRes64_cause (s : State) (v : BitVec 64) : (s.setRes64 v).cause = s.cause := rfl
@[simp] theorem State.setRes64_fcmd (s : State) (v : BitVec 64) : (s.setRes64 v).fcmd = s.fcmd := rfl
@[simp] theorem State.setRes64_cmd (s : State) (v : BitVec 64) : (s.setRes64 v).cmd = s.cmd := rfl
@[simp] theorem State.setRes64_slots (s : State) (v : BitVec 64) : (s.setRes64 v).slots = s.slots := rfl
@[simp] theorem State.setRes64_pmCapacity (s : State) (v : BitVec 64) :
    (s.setRes64 v).pmCapacity = s.pmCapacity := rfl
@[simp] theorem State.setRes64_program (s : State) (v : BitVec 64) : (s.setRes64 v).program = s.program := rfl
@[simp] theorem State.setRes64_pc (s : State) (v : BitVec 64) : (s.setRes64 v).pc = s.pc := rfl
@[simp] theorem State.setRes64_reads (s : State) (v : BitVec 64) : (s.setRes64 v).reads = s.reads := rfl

/-! ### writeCtrl -/

@[simp] theorem State.writeCtrl_regs (s : State) (v : Word) : (s.writeCtrl v).regs = s.regs := rfl
@[simp] theorem State.writeCtrl_strict (s : State) (v : Word) : (s.writeCtrl v).strict = v.getLsbD 0 := rfl
@[simp] theorem State.writeCtrl_fault (s : State) (v : Word) : (s.writeCtrl v).fault = s.fault := rfl
@[simp] theorem State.writeCtrl_cause (s : State) (v : Word) : (s.writeCtrl v).cause = s.cause := rfl
@[simp] theorem State.writeCtrl_fcmd (s : State) (v : Word) : (s.writeCtrl v).fcmd = s.fcmd := rfl
@[simp] theorem State.writeCtrl_cmd (s : State) (v : Word) : (s.writeCtrl v).cmd = s.cmd := rfl
@[simp] theorem State.writeCtrl_slots (s : State) (v : Word) : (s.writeCtrl v).slots = s.slots := rfl
@[simp] theorem State.writeCtrl_pmCapacity (s : State) (v : Word) : (s.writeCtrl v).pmCapacity = s.pmCapacity := rfl
@[simp] theorem State.writeCtrl_program (s : State) (v : Word) : (s.writeCtrl v).program = s.program := rfl
@[simp] theorem State.writeCtrl_pc (s : State) (v : Word) : (s.writeCtrl v).pc = s.pc := rfl
@[simp] theorem State.writeCtrl_reads (s : State) (v : Word) : (s.writeCtrl v).reads = s.reads := rfl

/-! ### advance -/

@[simp] theorem State.advance_regs (s : State) : (s.advance).regs = s.regs := rfl
@[simp] theorem State.advance_strict (s : State) : (s.advance).strict = s.strict := rfl
@[simp] theorem State.advance_fault (s : State) : (s.advance).fault = s.fault := rfl
@[simp] theorem State.advance_cause (s : State) : (s.advance).cause = s.cause := rfl
@[simp] theorem State.advance_fcmd (s : State) : (s.advance).fcmd = s.fcmd := rfl
@[simp] theorem State.advance_cmd (s : State) : (s.advance).cmd = s.cmd := rfl
@[simp] theorem State.advance_slots (s : State) : (s.advance).slots = s.slots := rfl
@[simp] theorem State.advance_pmCapacity (s : State) : (s.advance).pmCapacity = s.pmCapacity := rfl
@[simp] theorem State.advance_program (s : State) : (s.advance).program = s.program := rfl
@[simp] theorem State.advance_pc (s : State) : (s.advance).pc = s.pc + 1 := rfl
@[simp] theorem State.advance_reads (s : State) : (s.advance).reads = s.reads := rfl

/-! ### applyReset -/

@[simp] theorem State.applyReset_regs (s : State) : (s.applyReset).regs = ⟨0, 0, 0, 0, 0, 0, 0, 0⟩ := rfl
@[simp] theorem State.applyReset_strict (s : State) : (s.applyReset).strict = false := rfl
@[simp] theorem State.applyReset_fault (s : State) : (s.applyReset).fault = false := rfl
@[simp] theorem State.applyReset_cause (s : State) : (s.applyReset).cause = 0 := rfl
@[simp] theorem State.applyReset_fcmd (s : State) : (s.applyReset).fcmd = 0 := rfl
@[simp] theorem State.applyReset_cmd (s : State) : (s.applyReset).cmd = 0 := rfl
@[simp] theorem State.applyReset_slots (s : State) : (s.applyReset).slots = Vector.replicate 16 none := rfl
@[simp] theorem State.applyReset_pmCapacity (s : State) : (s.applyReset).pmCapacity = s.pmCapacity := rfl
@[simp] theorem State.applyReset_program (s : State) : (s.applyReset).program = s.program := rfl
@[simp] theorem State.applyReset_pc (s : State) : (s.applyReset).pc = s.pc := rfl
@[simp] theorem State.applyReset_reads (s : State) : (s.applyReset).reads = s.reads := rfl

/-! ### Slots -/

/-- The slot written holds what was written. -/
@[simp] theorem State.slot_setSlot_self (s : State) (r : SlotIx) (b : Option Buffer) : (s.setSlot r b).slot r = b := by
  simp [State.slot, State.setSlot]

/-- Every other slot keeps what it held (rule R32). -/
@[simp] theorem State.slot_setSlot_ne (s : State) (r q : SlotIx) (b : Option Buffer) (h : q ≠ r) :
    (s.setSlot r b).slot q = s.slot q := by
  have : r.val ≠ q.val := fun hv => h (Fin.ext hv.symm)
  simp [State.slot, State.setSlot, this]

theorem State.slot_setSlot (s : State) (r q : SlotIx) (b : Option Buffer) :
    (s.setSlot r b).slot q = if q = r then b else s.slot q := by
  by_cases h : q = r
  · subst h; simp
  · simp [h]

/-- Writing a slot twice is writing it once, the second time. -/
@[simp] theorem State.setSlot_setSlot (s : State) (r : SlotIx) (b b' : Option Buffer) :
    (s.setSlot r b).setSlot r b' = s.setSlot r b' := by
  simp [State.setSlot]

/-- Writing back what a slot holds changes nothing. -/
theorem State.setSlot_slot (s : State) (r : SlotIx) : s.setSlot r (s.slot r) = s := by
  simp [State.setSlot, State.slot]

@[simp] theorem State.slot_takeFault (s : State) (c : Cause) (q : SlotIx) : (s.takeFault c).slot q = s.slot q := rfl
@[simp] theorem State.slot_setRes64 (s : State) (v : BitVec 64) (q : SlotIx) : (s.setRes64 v).slot q = s.slot q := rfl
@[simp] theorem State.slot_writeCtrl (s : State) (v : Word) (q : SlotIx) : (s.writeCtrl v).slot q = s.slot q := rfl
@[simp] theorem State.slot_advance (s : State) (q : SlotIx) : s.advance.slot q = s.slot q := rfl

/-- After reset every slot is free (rule R37). -/
@[simp] theorem State.slot_applyReset (s : State) (q : SlotIx) : s.applyReset.slot q = none := by
  simp [State.slot, State.applyReset, State.resetWith]

/-! ### Bytes in use -/

/-- The bytes in use count a slot's buffer once: replacing it trades its bytes for the new ones (rule R91). -/
theorem State.used_setSlot (s : State) (r : SlotIx) (b : Option Buffer) :
    (s.setSlot r b).used + slotLen (s.slot r) = s.used + slotLen b := by
  have key : ∀ (l : List (Option Buffer)) (n : Nat) (hn : n < l.length),
      ((l.set n b).map slotLen).sum + slotLen l[n] = (l.map slotLen).sum + slotLen b := by
    intro l
    induction l with
    | nil => intro n hn; exact absurd hn (Nat.not_lt_zero _)
    | cons o rest ih =>
      intro n hn
      cases n with
      | zero => simp; omega
      | succ n =>
        have := ih n (by simpa using hn)
        simp only [List.set_cons_succ, List.map_cons, List.sum_cons, List.getElem_cons_succ]
        omega
  have h := key s.slots.toList r.val (by simp)
  have hset : (s.slots.set r b).toList = s.slots.toList.set r b := Vector.toList_set _
  simp only [State.used, State.setSlot, State.slot, hset]
  simpa using h

/-- A free slot that receives a buffer adds its bytes (rule R91). -/
theorem State.used_setSlot_of_free (s : State) (r : SlotIx) (b : Buffer) (h : s.slot r = none) :
    (s.setSlot r (some b)).used = s.used + b.len := by
  have := s.used_setSlot r (some b)
  simpa [h, slotLen] using this

@[simp] theorem State.used_takeFault (s : State) (c : Cause) : (s.takeFault c).used = s.used := rfl
@[simp] theorem State.used_setRes64 (s : State) (v : BitVec 64) : (s.setRes64 v).used = s.used := rfl

/-! ### Operand registers -/

/-- A register written holds what was written; every other keeps its value (rules R11, R14). -/
theorem OpRegs.get_set (r : OpRegs) (i j : Fin 8) (v : Word) : (r.set i v).get j = if j = i then v else r.get j := by
  fin_cases i <;> fin_cases j <;> rfl

end Sys2Proof.Machine
end

