-- ==== Sys2Proof/Laws/Ops.lean ====
section
/-! SUPPORT. For each shared operation, once, everything it can do: if it answers a next state `t`, then how. The
proofs cite these lemmas instead of unfolding the operations. -/

namespace Sys2Proof.Machine

/-- Taking a fault always answers, with the fault taken (rule R192). -/
@[simp] theorem raise_eq (c : Cause) (s t : State) : raise c s = .next t ↔ t = s.takeFault c := by
  simp [raise, eq_comm]

/-- `needBuffer`: the fault `BadSlot` on a free slot, else it goes on with the slot's buffer (rule R183). -/
theorem needBuffer_eq (r : SlotIx) (s t : State) (go : Buffer → Result) :
    needBuffer r s go = .next t ↔
      (s.slot r = none ∧ t = s.takeFault .badSlot) ∨ ∃ b, s.slot r = some b ∧ go b = .next t := by
  unfold needBuffer
  cases h : s.slot r <;> simp

@[simp] theorem needBuffer_none (r : SlotIx) (s : State) (go : Buffer → Result) (h : s.slot r = none) :
    needBuffer r s go = .next (s.takeFault .badSlot) := by simp [needBuffer, h, raise]

@[simp] theorem needBuffer_some (r : SlotIx) (s : State) (go : Buffer → Result) (b : Buffer) (h : s.slot r = some b) :
    needBuffer r s go = go b := by simp [needBuffer, h]

/-- `needFree`: the fault `SlotBusy` on a valid slot, else it goes on (rule R184). -/
theorem needFree_eq (r : SlotIx) (s t : State) (go : Result) :
    needFree r s go = .next t ↔
      (s.slot r ≠ none ∧ t = s.takeFault .slotBusy) ∨ (s.slot r = none ∧ go = .next t) := by
  unfold needFree
  cases h : s.slot r <;> simp

@[simp] theorem needFree_none (r : SlotIx) (s : State) (go : Result) (h : s.slot r = none) :
    needFree r s go = go := by simp [needFree, h]

@[simp] theorem needFree_some (r : SlotIx) (s : State) (go : Result) (b : Buffer) (h : s.slot r = some b) :
    needFree r s go = .next (s.takeFault .slotBusy) := by simp [needFree, h, raise]

/-- `check`: the fault where the condition holds, else it goes on. -/
theorem check_eq (p : Bool) (c : Cause) (s t : State) (go : Result) :
    check p c s go = .next t ↔ (p = true ∧ t = s.takeFault c) ∨ (p = false ∧ go = .next t) := by
  unfold check
  cases p <;> simp

@[simp] theorem check_true (c : Cause) (s : State) (go : Result) : check true c s go = .next (s.takeFault c) := rfl
@[simp] theorem check_false (c : Cause) (s : State) (go : Result) : check false c s go = go := rfl

theorem check_pos {p : Bool} (c : Cause) (s : State) (go : Result) (h : p = true) :
    check p c s go = .next (s.takeFault c) := by subst h; rfl

theorem check_neg {p : Bool} (c : Cause) (s : State) (go : Result) (h : p = false) : check p c s go = go := by
  subst h; rfl

/-- Rule R91's `used + n ≤ PM_CAPACITY`, as a statement about the capacity. -/
theorem State.fits_eq_true (s : State) (n : Nat) : s.fits n = true ↔ ∀ c, s.pmCapacity = some c → s.used + n ≤ c := by
  unfold State.fits
  cases s.pmCapacity <;> simp

theorem State.fits_eq_false (s : State) (n : Nat) :
    s.fits n = false ↔ ∃ c, s.pmCapacity = some c ∧ c < s.used + n := by
  unfold State.fits
  cases s.pmCapacity <;> simp

/-- `install`: the fault `AllocFail` where the new buffer does not fit, else the slot receives it (rule R191). -/
theorem install_eq (r : SlotIx) (b : Buffer) (s t : State) :
    install r b s = .next t ↔
      (s.fits b.len = false ∧ t = s.takeFault .allocFail) ∨ (s.fits b.len = true ∧ t = s.setSlot r (some b)) := by
  unfold install check
  cases s.fits b.len <;> simp [raise, eq_comm]

theorem install_of_fits (r : SlotIx) (b : Buffer) (s : State) (h : s.fits b.len = true) :
    install r b s = .next (s.setSlot r (some b)) := by simp [install, h]

/-- `paint`: always the slot with the writes applied. -/
@[simp] theorem paint_eq (r : SlotIx) (b : Buffer) (ws : List PixelWrite) (s t : State) :
    paint r b ws s = .next t ↔ t = s.setSlot r (some (b.writeAll ws)) := by
  simp [paint, eq_comm]

/-- `answer`: always the result pair, zero-extended to 64 bits (rule R13). -/
@[simp] theorem answer_eq (v : Nat) (s t : State) : answer v s = .next t ↔ t = s.setRes64 (BitVec.ofNat 64 v) := by
  simp [answer, eq_comm]

/-- A result below 2^32 is `RES`, and `RESH` becomes 0 (rule R13). -/
theorem setRes64_of_lt (s : State) (v : Nat) (h : v < 2 ^ 32) :
    s.setRes64 (BitVec.ofNat 64 v) = { s with regs := { s.regs with res := BitVec.ofNat 32 v, resh := 0#32 } } := by
  have h1 : (BitVec.ofNat 64 v).extractLsb' 0 32 = BitVec.ofNat 32 v := by
    apply BitVec.eq_of_toNat_eq; simp [BitVec.extractLsb'_toNat]
  have h2 : (BitVec.ofNat 64 v).extractLsb' 32 32 = 0#32 := by
    apply BitVec.eq_of_toNat_eq
    simp only [BitVec.extractLsb'_toNat, BitVec.toNat_ofNat, Nat.shiftRight_eq_div_pow]
    rw [Nat.mod_eq_of_lt (show v < 2 ^ 64 by omega), Nat.div_eq_of_lt h]
  simp only [State.setRes64, h1, h2]

/-- `needTwo`: the two `BadSlot` checks, then it goes on with both buffers (rule R160). -/
theorem needTwo_eq (rd rs : SlotIx) (s t : State) (go : Buffer → Buffer → Result) :
    needTwo rd rs s go = .next t ↔
      ((s.slot rd = none ∨ s.slot rs = none) ∧ t = s.takeFault .badSlot) ∨
        ∃ b o, s.slot rd = some b ∧ s.slot rs = some o ∧ go b o = .next t := by
  unfold needTwo needBuffer
  cases h : s.slot rd <;> cases h' : s.slot rs <;> simp

theorem needTwo_none_left (rd rs : SlotIx) (s : State) (go : Buffer → Buffer → Result) (h : s.slot rd = none) :
    needTwo rd rs s go = .next (s.takeFault .badSlot) := by simp [needTwo, h]

theorem needTwo_none_right (rd rs : SlotIx) (s : State) (go : Buffer → Buffer → Result) (h : s.slot rs = none) :
    needTwo rd rs s go = .next (s.takeFault .badSlot) := by
  unfold needTwo needBuffer
  cases s.slot rd <;> simp [h, raise]

@[simp] theorem needTwo_some (rd rs : SlotIx) (s : State) (go : Buffer → Buffer → Result) (b o : Buffer)
    (h : s.slot rd = some b) (h' : s.slot rs = some o) : needTwo rd rs s go = go b o := by simp [needTwo, h, h']

/-- `access`: a refusal by name where rule R29 gives the access no meaning, else it goes on with the register of the
map. -/
theorem access_eq (bits off : Nat) (go : RegName → Result) (t : State) :
    access bits off go = .next t ↔ bits = 32 ∧ off % 4 = 0 ∧ ∃ r, regAt off = some r ∧ go r = .next t := by
  unfold access
  by_cases h1 : bits = 32
  · by_cases h2 : off % 4 = 0
    · cases h3 : regAt off <;> simp [h1, h2]
    · simp [h1, h2]
  · simp [h1]

/-- The map of rule R22 inverts the offsets. -/
@[simp] theorem regAt_regOffset (r : RegName) : regAt (regOffset r) = some r := by
  cases r with
  | p i => fin_cases i <;> rfl
  | _ => rfl

/-- The map of rule R22 has nothing beside the fourteen registers. -/
theorem regOffset_of_regAt (off : Nat) (r : RegName) (h : regAt off = some r) : regOffset r = off := by
  unfold regAt at h
  split at h <;> first | (cases h; rfl) | cases h

theorem regOffset_mod_four (r : RegName) : regOffset r % 4 = 0 := by
  cases r with
  | p i => simp only [regOffset]; omega
  | _ => rfl

/-- A 32-bit access at a register's offset reaches that register (rules R22, R95, R96). -/
@[simp] theorem access_regOffset (r : RegName) (go : RegName → Result) : access 32 (regOffset r) go = go r := by
  simp [access, regOffset_mod_four]

/-- `writeCmd`: discarded while the engine is halted, else the word is stored and run (rules R28, R80, R195). -/
theorem writeCmd_of_fault (w : Word) (s : State) (h : s.fault = true) : writeCmd w s = .next s := by simp [writeCmd, h]

theorem writeCmd_of_ok (w : Word) (s : State) (i : Instr) (h : s.fault = false) (hd : decode w = .ok i) :
    writeCmd w s = exec i { s with cmd := w } := by simp [writeCmd, h, runCommand, hd]

theorem writeCmd_of_error (w : Word) (s : State) (e : DecodeError) (h : s.fault = false) (hd : decode w = .error e) :
    writeCmd w s = .next (State.takeFault { s with cmd := w } .illegalCmd) := by
  simp [writeCmd, h, runCommand, hd, raise]

/-- The operation placed at an index is the one found there. -/
@[simp] theorem placeOp_getElem? (l : List HostOp) (n : Nat) (op : HostOp) : (placeOp l n op)[n]? = some op := by
  induction l generalizing n with
  | nil =>
    induction n with
    | zero => rfl
    | succ n ih => simpa [placeOp] using ih
  | cons o rest ih =>
    cases n with
    | zero => rfl
    | succ n => simpa [placeOp] using ih n

/-- `withFetchWord`: the host's next operation is the write of the word to `CMD`. -/
theorem nextOp_withFetchWord (s : State) (nbits w : Nat) :
    (s.withFetchWord nbits w).nextOp = some (commandWrite (BitVec.ofNat 32 (w % 2 ^ nbits))) := by
  simp [State.withFetchWord, State.nextOp]

end Sys2Proof.Machine
end

