-- ==== Sys2Proof/Laws/Layout.lean ====
section
/-! SUPPORT. The laws of lanes: reading a lane after writing it or another one, a byte as its lanes, and the value
domain of a pixel. -/

namespace Sys2Proof.Machine

theorem bitsOf_pos (d : Depth) : 0 < bitsOf d := by cases d <;> decide

theorem bitsOf_le (d : Depth) : bitsOf d ≤ 8 := by cases d <;> decide

theorem ppb_pos (d : Depth) : 0 < ppb d := by cases d <;> decide

/-- Depths divide a byte: the lanes fill it exactly (rule R42). -/
theorem ppb_mul_bitsOf (d : Depth) : ppb d * bitsOf d = 8 := by cases d <;> rfl

/-- `mask(d) = (1 << d) - 1` (rule R45). -/
theorem maskOf_toNat (d : Depth) : (maskOf d).toNat = 2 ^ bitsOf d - 1 := by cases d <;> rfl

theorem maskOf_getLsbD (d : Depth) (i : Nat) : (maskOf d).getLsbD i = decide (i < bitsOf d) := by
  rw [Bool.eq_iff_iff]
  rw [maskOf, BitVec.getLsbD_ushiftRight, BitVec.getLsbD_allOnes, decide_eq_true_eq, decide_eq_true_eq]
  have := bitsOf_le d
  omega

/-- This hardware's lane order: lane `k` starts at bit `k*d` (rule R44). -/
theorem laneShift_lsbFirst (k : Nat) (d : Depth) : laneShift k d = k * bitsOf d := rfl

/-- Bit `i` of the value of lane `k`. -/
theorem laneRead_getLsbD (d : Depth) (k : Nat) (b : Byte) (i : Nat) :
    (laneRead d k b).getLsbD i = (b.getLsbD (k * bitsOf d + i) && decide (i < bitsOf d)) := by
  simp [laneRead, laneShift_lsbFirst, maskOf_getLsbD]

theorem lane_end_le (d : Depth) (k : Nat) (hk : k < ppb d) : k * bitsOf d + bitsOf d ≤ 8 := by
  have := ppb_mul_bitsOf d
  nlinarith [bitsOf_pos d]

/-- Bit `j` of a byte after lane `k` is written: the value's bit inside the lane, the old bit outside it. -/
theorem laneWrite_getLsbD (d : Depth) (k : Nat) (v : Int) (b : Byte) (j : Nat) (hj : j < 8) :
    (laneWrite d k v b).getLsbD j =
      if k * bitsOf d ≤ j ∧ j < k * bitsOf d + bitsOf d then (BitVec.ofInt 8 v).getLsbD (j - k * bitsOf d)
      else b.getLsbD j := by
  have h1 : (j < k * bitsOf d + bitsOf d) ↔ (j - k * bitsOf d < bitsOf d) := by
    have := bitsOf_pos d; omega
  simp only [laneWrite, laneShift_lsbFirst, BitVec.getLsbD_or, BitVec.getLsbD_and, BitVec.getLsbD_not,
    BitVec.getLsbD_shiftLeft, maskOf_getLsbD, hj, decide_true, Bool.true_and]
  by_cases ha : k * bitsOf d ≤ j
  · have h2 : ¬ j < k * bitsOf d := by omega
    by_cases hb : j - k * bitsOf d < bitsOf d
    · simp [h2, ha, h1, hb]
    · simp [h2, ha, h1, hb]
  · have h2 : j < k * bitsOf d := by omega
    simp [h2, ha]

/-- A lane reads back what was written to it, masked to the depth (rule R48). -/
theorem laneRead_laneWrite_self (d : Depth) (k : Nat) (hk : k < ppb d) (v : Int) (b : Byte) :
    laneRead d k (laneWrite d k v b) = BitVec.ofInt 8 v &&& maskOf d := by
  apply BitVec.eq_of_getLsbD_eq
  intro i hi
  have hend := lane_end_le d k hk
  rw [laneRead_getLsbD, BitVec.getLsbD_and, maskOf_getLsbD]
  by_cases hb : i < bitsOf d
  · rw [laneWrite_getLsbD d k v b _ (by omega), if_pos (by omega), Nat.add_sub_cancel_left]
  · simp [hb]

/-- Writing one lane leaves the other lanes of the byte alone (rule R48). -/
theorem laneRead_laneWrite_other (d : Depth) (j k : Nat) (hj : j < ppb d) (hne : j ≠ k) (v : Int) (b : Byte) :
    laneRead d j (laneWrite d k v b) = laneRead d j b := by
  apply BitVec.eq_of_getLsbD_eq
  intro i hi
  have hend := lane_end_le d j hj
  rw [laneRead_getLsbD, laneRead_getLsbD]
  by_cases hb : i < bitsOf d
  · rw [laneWrite_getLsbD d k v b _ (by omega), if_neg]
    rcases Nat.lt_or_gt_of_ne hne with h | h
    · have : (j + 1) * bitsOf d ≤ k * bitsOf d := Nat.mul_le_mul_right _ h
      have : (j + 1) * bitsOf d = j * bitsOf d + bitsOf d := by ring
      omega
    · have : (k + 1) * bitsOf d ≤ j * bitsOf d := Nat.mul_le_mul_right _ h
      have : (k + 1) * bitsOf d = k * bitsOf d + bitsOf d := by ring
      omega
  · simp [hb]

/-- A byte is its lanes: two bytes with equal lanes are equal. -/
theorem byte_ext_of_lanes (d : Depth) (b b' : Byte) (h : ∀ k, k < ppb d → laneRead d k b = laneRead d k b') :
    b = b' := by
  apply BitVec.eq_of_getLsbD_eq
  intro i hi
  have hp := bitsOf_pos d
  have hk : i / bitsOf d < ppb d := by
    rw [Nat.div_lt_iff_lt_mul hp, ppb_mul_bitsOf]; exact hi
  have := congrArg (fun t => t.getLsbD (i % bitsOf d)) (h _ hk)
  simp only [laneRead_getLsbD, Nat.mod_lt _ hp, decide_true, Bool.and_true] at this
  rwa [Nat.div_add_mod'] at this

/-- Every lane of the zero byte is 0. -/
theorem laneRead_zero (d : Depth) (k : Nat) : laneRead d k 0#8 = 0#8 := by
  simp [laneRead]

/-- `v & mask(d)` through the byte the machine masks (rule R45). -/
theorem ofInt_and_maskOf_toNat (d : Depth) (v : Int) : (BitVec.ofInt 8 v &&& maskOf d).toNat = truncate d v := by
  have h : (BitVec.ofInt 8 v).toNat = (v % 256).toNat := by rw [BitVec.toNat_ofInt]; norm_num
  rw [BitVec.toNat_and, maskOf_toNat, Nat.and_two_pow_sub_one_eq_mod, h, truncate]
  cases d <;> simp only [bitsOf] <;> norm_num <;> omega

/-- A lane reads back `v & mask(d)` as a number (rules R45, R48). -/
theorem laneRead_laneWrite_self_toNat (d : Depth) (k : Nat) (hk : k < ppb d) (v : Int) (b : Byte) :
    (laneRead d k (laneWrite d k v b)).toNat = truncate d v := by
  rw [laneRead_laneWrite_self d k hk, ofInt_and_maskOf_toNat]

/-- A pixel value lies in `[0, 2^d - 1]`, whatever the byte holds (rule R45). -/
theorem laneRead_lt (d : Depth) (k : Nat) (b : Byte) : (laneRead d k b).toNat < 2 ^ bitsOf d := by
  rw [laneRead, BitVec.toNat_and, maskOf_toNat, Nat.and_two_pow_sub_one_eq_mod]
  exact Nat.mod_lt _ (by positivity)

theorem truncate_lt (d : Depth) (v : Int) : truncate d v < 2 ^ bitsOf d := by
  cases d <;> simp only [truncate, bitsOf] <;> norm_num <;> omega

/-- A value of the domain is kept whole: widening loses nothing (rule R165). -/
theorem truncate_of_lt (d : Depth) (n : Nat) (h : n < 2 ^ bitsOf d) : truncate d n = n := by
  cases d <;> simp only [truncate, bitsOf] at * <;> norm_num at * <;> omega

@[simp] theorem truncate_zero (d : Depth) : truncate d 0 = 0 := by cases d <;> rfl

end Sys2Proof.Machine
end

