-- ==== Sys2Proof/Laws/Memory.lean ====
section
/-! SUPPORT. The laws of a buffer's bytes: a read after a write, the canonical form kept by every write, and equality
of canonical memories from equality of their reads. -/

namespace Sys2Proof.Machine

@[simp] theorem Memory.read_nil (a : Nat) : Memory.read [] a = Memory.unlisted := rfl

theorem Memory.read_cons (b : Nat) (u : Byte) (rest : Memory) (a : Nat) :
    Memory.read ((b, u) :: rest) a = if a = b then u else Memory.read rest a := rfl

/-- Writing at one offset leaves every other offset's byte alone. -/
theorem Memory.read_write_other (m : Memory) (a c : Nat) (v : Byte) (h : c ≠ a) :
    (m.write a v).read c = m.read c := by
  induction m with
  | nil => simp only [Memory.write, Memory.cons]; split <;> simp [Memory.read_cons, h]
  | cons cell rest ih =>
    obtain ⟨b, u⟩ := cell
    simp only [Memory.write]
    split
    · simp only [Memory.cons]; split <;> simp [Memory.read_cons, h]
    · split
      · subst_vars
        simp only [Memory.cons]; split <;> simp [Memory.read_cons, h]
      · simp [Memory.read_cons, ih]

/-- Below or at its lower bound, a canonical memory lists nothing. -/
theorem Memory.read_of_wfAbove {l : Nat} (m : Memory) (h : Memory.wfAbove (some l) m = true) {a : Nat} (ha : a ≤ l) :
    m.read a = Memory.unlisted := by
  induction m generalizing l with
  | nil => rfl
  | cons cell rest ih =>
    obtain ⟨b, u⟩ := cell
    simp only [Memory.wfAbove, Bool.and_eq_true, decide_eq_true_eq] at h
    obtain ⟨⟨hlb, -⟩, hrest⟩ := h
    rw [Memory.read_cons, if_neg (by omega)]
    exact ih hrest (by omega)

theorem Memory.wfAbove_none {lo : Option Nat} (m : Memory) (h : Memory.wfAbove lo m = true) :
    Memory.wfAbove none m = true := by
  cases m with
  | nil => rfl
  | cons cell rest => simp only [Memory.wfAbove, Bool.and_eq_true] at h ⊢; exact ⟨⟨trivial, h.1.2⟩, h.2⟩

theorem Memory.wfAbove_weaken {l l' : Nat} (m : Memory) (h : Memory.wfAbove (some l) m = true) (hl : l' ≤ l) :
    Memory.wfAbove (some l') m = true := by
  cases m with
  | nil => rfl
  | cons cell rest =>
    simp only [Memory.wfAbove, Bool.and_eq_true, decide_eq_true_eq] at h ⊢
    exact ⟨⟨by omega, h.1.2⟩, h.2⟩

/-- A read after a write to the same offset gives the byte written. -/
theorem Memory.read_write_self (m : Memory) (a : Nat) (v : Byte) (h : m.wf = true) : (m.write a v).read a = v := by
  suffices ∀ lo, Memory.wfAbove lo m = true → (m.write a v).read a = v from this none h
  clear h
  induction m with
  | nil =>
    intro lo _
    simp only [Memory.write, Memory.cons]
    split <;> simp_all [Memory.read_cons]
  | cons cell rest ih =>
    intro lo h
    obtain ⟨b, u⟩ := cell
    simp only [Memory.wfAbove, Bool.and_eq_true] at h
    simp only [Memory.write]
    split
    · rename_i hab
      simp only [Memory.cons]
      split
      · rename_i hv
        rw [Memory.read_cons, if_neg (by omega), hv]
        exact Memory.read_of_wfAbove rest h.2 (by omega)
      · simp [Memory.read_cons]
    · split
      · rename_i hab
        subst hab
        simp only [Memory.cons]
        split
        · rename_i hv; rw [hv]; exact Memory.read_of_wfAbove rest h.2 (le_refl _)
        · simp [Memory.read_cons]
      · rename_i hlt hne
        rw [Memory.read_cons, if_neg hne]
        exact ih _ h.2

theorem Memory.read_write (m : Memory) (a c : Nat) (v : Byte) (h : m.wf = true) :
    (m.write a v).read c = if c = a then v else m.read c := by
  by_cases hc : c = a
  · subst hc; simp [Memory.read_write_self m c v h]
  · simp [hc, Memory.read_write_other m a c v hc]

theorem Memory.wfAbove_write (m : Memory) (a : Nat) (v : Byte) (lo : Option Nat)
    (h : Memory.wfAbove lo m = true) (hlo : ∀ l, lo = some l → l < a) : Memory.wfAbove lo (m.write a v) = true := by
  induction m generalizing lo with
  | nil =>
    simp only [Memory.write, Memory.cons]
    split
    · rfl
    · cases lo <;> simp_all [Memory.wfAbove]
  | cons cell rest ih =>
    obtain ⟨b, u⟩ := cell
    have hw := h
    simp only [Memory.wfAbove, Bool.and_eq_true] at h
    simp only [Memory.write]
    split
    · rename_i hab
      simp only [Memory.cons]
      split
      · exact hw
      · rename_i hv
        simp only [Memory.wfAbove, Bool.and_eq_true]
        refine ⟨⟨?_, by simpa using hv⟩, ⟨by simpa using hab, h.1.2⟩, h.2⟩
        cases lo with
        | none => rfl
        | some l => simpa using hlo l rfl
    · split
      · rename_i hab
        subst hab
        simp only [Memory.cons]
        split
        · cases lo with
          | none => exact Memory.wfAbove_none rest h.2
          | some l => exact Memory.wfAbove_weaken rest h.2 (le_of_lt (hlo l rfl))
        · rename_i hv
          simp only [Memory.wfAbove, Bool.and_eq_true]
          exact ⟨⟨h.1.1, by simpa using hv⟩, h.2⟩
      · rename_i hlt hne
        simp only [Memory.wfAbove, Bool.and_eq_true]
        exact ⟨h.1, ih (some b) h.2 (by intro l hl; cases hl; omega)⟩

/-- Every write keeps the canonical form. -/
theorem Memory.wf_write (m : Memory) (a : Nat) (v : Byte) (h : m.wf = true) : (m.write a v).wf = true :=
  Memory.wfAbove_write m a v none h (by simp)

theorem Memory.wf_nil : Memory.wf [] = true := rfl

theorem Memory.below_nil (n : Nat) : Memory.below n [] = true := rfl

/-- A write inside the buffer lists nothing outside it. -/
theorem Memory.below_write (m : Memory) (a n : Nat) (v : Byte) (h : m.below n = true) (ha : a < n) :
    (m.write a v).below n = true := by
  induction m with
  | nil => simp only [Memory.write, Memory.cons]; split <;> simp [Memory.below, ha]
  | cons cell rest ih =>
    obtain ⟨b, u⟩ := cell
    simp only [Memory.below, List.all_cons, Bool.and_eq_true, decide_eq_true_eq] at h ih
    simp only [Memory.write]
    split
    · simp only [Memory.cons]; split <;> simp [Memory.below, ha, h.1, h.2]
    · split
      · simp only [Memory.cons]; split <;> simp [Memory.below, ha, h.2]
      · simp only [Memory.below, List.all_cons, Bool.and_eq_true, decide_eq_true_eq]
        exact ⟨h.1, ih h.2⟩

/-- Outside a buffer nothing is listed. -/
theorem Memory.read_of_below (m : Memory) (n a : Nat) (h : m.below n = true) (ha : n ≤ a) :
    m.read a = Memory.unlisted := by
  induction m with
  | nil => rfl
  | cons cell rest ih =>
    obtain ⟨b, u⟩ := cell
    simp only [Memory.below, List.all_cons, Bool.and_eq_true, decide_eq_true_eq] at h ih
    rw [Memory.read_cons, if_neg (by omega)]
    exact ih h.2

theorem Memory.below_of_le (m : Memory) (n n' : Nat) (h : m.below n = true) (hn : n ≤ n') : m.below n' = true := by
  simp only [Memory.below, List.all_eq_true, decide_eq_true_eq] at h ⊢
  intro cell hc
  have := h cell hc
  omega

theorem Memory.ext_above (m m' : Memory) (lo lo' : Option Nat) (h : Memory.wfAbove lo m = true)
    (h' : Memory.wfAbove lo' m' = true) (hr : ∀ a, m.read a = m'.read a) : m = m' := by
  induction m generalizing lo lo' m' with
  | nil =>
    cases m' with
    | nil => rfl
    | cons cell rest =>
      obtain ⟨b, u⟩ := cell
      have := hr b
      simp_all [Memory.read_cons, Memory.wfAbove]
  | cons cell rest ih =>
    obtain ⟨b, u⟩ := cell
    cases m' with
    | nil =>
      have := hr b
      simp_all [Memory.read_cons, Memory.wfAbove]
    | cons cell' rest' =>
      obtain ⟨b', u'⟩ := cell'
      simp only [Memory.wfAbove, Bool.and_eq_true, bne_iff_ne, ne_eq] at h h'
      have hb : b = b' := by
        rcases lt_trichotomy b b' with hlt | heq | hlt
        · have := hr b
          rw [Memory.read_cons, if_pos rfl, Memory.read_cons, if_neg (by omega),
            Memory.read_of_wfAbove rest' h'.2 (by omega)] at this
          exact absurd this h.1.2
        · exact heq
        · have := hr b'
          rw [Memory.read_cons, if_neg (by omega), Memory.read_of_wfAbove rest h.2 (by omega),
            Memory.read_cons, if_pos rfl] at this
          exact absurd this.symm h'.1.2
      subst hb
      have hu : u = u' := by simpa [Memory.read_cons] using hr b
      subst hu
      have : rest = rest' := by
        refine ih rest' (some b) (some b) h.2 h'.2 fun a => ?_
        by_cases hab : a = b
        · subst hab
          rw [Memory.read_of_wfAbove rest h.2 (le_refl _), Memory.read_of_wfAbove rest' h'.2 (le_refl _)]
        · simpa [Memory.read_cons, hab] using hr a
      rw [this]

/-- Two canonical memories that read alike everywhere are equal: the form is canonical. -/
theorem Memory.ext_of_read (m m' : Memory) (h : m.wf = true) (h' : m'.wf = true) (hr : ∀ a, m.read a = m'.read a) :
    m = m' :=
  Memory.ext_above m m' none none h h' hr

end Sys2Proof.Machine
end

