-- ==== Sys2Proof/Laws/Pixels.lean ====
section
/-! SUPPORT. The laws of one buffer: what a pixel write and a list of pixel writes change and leave alone, and
equality of buffers from equality of their lanes. -/

namespace Sys2Proof.Machine

/-! ### The descriptor fields through the operations -/

@[simp] theorem Buffer.writeByte_width (b : Buffer) (off : Nat) (v : Byte) : (b.writeByte off v).width = b.width := rfl
@[simp] theorem Buffer.writeByte_height (b : Buffer) (off : Nat) (v : Byte) :
    (b.writeByte off v).height = b.height := rfl
@[simp] theorem Buffer.writeByte_depth (b : Buffer) (off : Nat) (v : Byte) : (b.writeByte off v).depth = b.depth := rfl
@[simp] theorem Buffer.writeByte_data (b : Buffer) (off : Nat) (v : Byte) :
    (b.writeByte off v).data = b.data.write off v := rfl
@[simp] theorem Buffer.pixWrite_width (b : Buffer) (x y : Nat) (v : Int) : (b.pixWrite x y v).width = b.width := rfl
@[simp] theorem Buffer.pixWrite_height (b : Buffer) (x y : Nat) (v : Int) : (b.pixWrite x y v).height = b.height := rfl
@[simp] theorem Buffer.pixWrite_depth (b : Buffer) (x y : Nat) (v : Int) : (b.pixWrite x y v).depth = b.depth := rfl

@[simp] theorem Buffer.pixWriteClipped_width (b : Buffer) (x y v : Int) :
    (b.pixWriteClipped x y v).width = b.width := by
  unfold Buffer.pixWriteClipped; split <;> rfl
@[simp] theorem Buffer.pixWriteClipped_height (b : Buffer) (x y v : Int) :
    (b.pixWriteClipped x y v).height = b.height := by
  unfold Buffer.pixWriteClipped; split <;> rfl
@[simp] theorem Buffer.pixWriteClipped_depth (b : Buffer) (x y v : Int) :
    (b.pixWriteClipped x y v).depth = b.depth := by
  unfold Buffer.pixWriteClipped; split <;> rfl

@[simp] theorem Buffer.writeAll_nil (b : Buffer) : b.writeAll [] = b := rfl

@[simp] theorem Buffer.writeAll_cons (b : Buffer) (q : PixelWrite) (ws : List PixelWrite) :
    b.writeAll (q :: ws) = (b.pixWriteClipped q.x q.y q.v).writeAll ws := rfl

@[simp] theorem Buffer.writeAll_width (b : Buffer) (ws : List PixelWrite) : (b.writeAll ws).width = b.width := by
  induction ws generalizing b with
  | nil => rfl
  | cons q ws ih => simp [ih]
@[simp] theorem Buffer.writeAll_height (b : Buffer) (ws : List PixelWrite) : (b.writeAll ws).height = b.height := by
  induction ws generalizing b with
  | nil => rfl
  | cons q ws ih => simp [ih]
@[simp] theorem Buffer.writeAll_depth (b : Buffer) (ws : List PixelWrite) : (b.writeAll ws).depth = b.depth := by
  induction ws generalizing b with
  | nil => rfl
  | cons q ws ih => simp [ih]

theorem Buffer.SameShape.w_eq {b b' : Buffer} (h : b.SameShape b') : b'.w = b.w := by simp [Buffer.w, h.width]
theorem Buffer.SameShape.h_eq {b b' : Buffer} (h : b.SameShape b') : b'.h = b.h := by simp [Buffer.h, h.height]
theorem Buffer.SameShape.rowBytes_eq {b b' : Buffer} (h : b.SameShape b') : b'.rowBytes = b.rowBytes := by
  simp [Buffer.rowBytes, h.w_eq, h.depth]
theorem Buffer.SameShape.len_eq {b b' : Buffer} (h : b.SameShape b') : b'.len = b.len := by
  simp [Buffer.len, h.w_eq, h.h_eq, h.depth]
theorem Buffer.SameShape.lanesPerRow_eq {b b' : Buffer} (h : b.SameShape b') : b'.lanesPerRow = b.lanesPerRow := by
  simp [Buffer.lanesPerRow, h.rowBytes_eq, h.depth]
theorem Buffer.SameShape.byteOff_eq {b b' : Buffer} (h : b.SameShape b') (x y : Nat) :
    b'.byteOff x y = b.byteOff x y := by
  simp [Buffer.byteOff, h.rowBytes_eq, h.depth]
theorem Buffer.SameShape.inBounds_eq {b b' : Buffer} (h : b.SameShape b') (x y : Int) :
    b'.inBounds x y = b.inBounds x y := by
  simp [Buffer.inBounds, h.w_eq, h.h_eq]

theorem Buffer.pixWrite_sameShape (b : Buffer) (x y : Nat) (v : Int) : b.SameShape (b.pixWrite x y v) := ⟨rfl, rfl, rfl⟩
theorem Buffer.pixWriteClipped_sameShape (b : Buffer) (x y v : Int) : b.SameShape (b.pixWriteClipped x y v) :=
  ⟨by simp, by simp, by simp⟩
theorem Buffer.writeAll_sameShape (b : Buffer) (ws : List PixelWrite) : b.SameShape (b.writeAll ws) :=
  ⟨by simp, by simp, by simp⟩

/-! ### Geometry -/

theorem Buffer.inBounds_iff (b : Buffer) (x y : Int) :
    b.inBounds x y = true ↔ 0 ≤ x ∧ x < b.w ∧ 0 ≤ y ∧ y < b.h := by
  simp [Buffer.inBounds, and_assoc]

theorem Buffer.inBounds_natCast (b : Buffer) (x y : Nat) : b.inBounds x y = true ↔ x < b.w ∧ y < b.h := by
  simp [Buffer.inBounds_iff]

/-- A row's lanes hold all its pixels (rules R41, R46). -/
theorem Buffer.w_le_lanesPerRow (b : Buffer) : b.w ≤ b.lanesPerRow := by
  simp only [Buffer.lanesPerRow, Buffer.rowBytes, Sys2Proof.Machine.rowBytes]
  cases b.depth <;> simp only [bitsOf, ppb] <;> omega

theorem Buffer.div_ppb_lt (b : Buffer) (x : Nat) (hx : x < b.lanesPerRow) : x / ppb b.depth < b.rowBytes :=
  (Nat.div_lt_iff_lt_mul (ppb_pos _)).mpr hx

/-- A lane of the buffer lies in a byte of the buffer (rule R42). -/
theorem Buffer.byteOff_lt_len (b : Buffer) (x y : Nat) (hx : x < b.lanesPerRow) (hy : y < b.h) :
    b.byteOff x y < b.len := by
  have h1 := b.div_ppb_lt x hx
  have h2 : (y + 1) * b.rowBytes ≤ b.h * b.rowBytes := Nat.mul_le_mul_right _ hy
  have h3 : (y + 1) * b.rowBytes = y * b.rowBytes + b.rowBytes := by ring
  have h4 : b.len = b.h * b.rowBytes := rfl
  simp only [Buffer.byteOff]
  omega

/-- Different bytes for different rows and byte columns (rule R42). -/
theorem Buffer.byteOff_inj (b : Buffer) (x y x' y' : Nat) (hx : x < b.lanesPerRow) (hx' : x' < b.lanesPerRow)
    (h : b.byteOff x y = b.byteOff x' y') : x / ppb b.depth = x' / ppb b.depth ∧ y = y' := by
  have h1 := b.div_ppb_lt x hx
  have h2 := b.div_ppb_lt x' hx'
  simp only [Buffer.byteOff] at h
  generalize x / ppb b.depth = a at *
  generalize x' / ppb b.depth = a' at *
  have hy : y = y' := by
    rcases lt_trichotomy y y' with hlt | heq | hlt
    · have : (y + 1) * b.rowBytes ≤ y' * b.rowBytes := Nat.mul_le_mul_right _ hlt
      have : (y + 1) * b.rowBytes = y * b.rowBytes + b.rowBytes := by ring
      omega
    · exact heq
    · have : (y' + 1) * b.rowBytes ≤ y * b.rowBytes := Nat.mul_le_mul_right _ hlt
      have : (y' + 1) * b.rowBytes = y' * b.rowBytes + b.rowBytes := by ring
      omega
  subst hy
  exact ⟨by omega, rfl⟩

/-- Every byte of the buffer is the byte of one of its lanes (rules R42, R46). -/
theorem Buffer.exists_lane_of_lt_len (b : Buffer) (off : Nat) (h : off < b.len) :
    ∃ x y, x + ppb b.depth ≤ b.lanesPerRow ∧ x % ppb b.depth = 0 ∧ y < b.h ∧ b.byteOff x y = off := by
  have hlen : b.len = b.h * b.rowBytes := rfl
  have hrb : 0 < b.rowBytes := by
    rcases Nat.eq_zero_or_pos b.rowBytes with h0 | h0
    · rw [hlen, h0] at h; simp at h
    · exact h0
  refine ⟨(off % b.rowBytes) * ppb b.depth, off / b.rowBytes, ?_, by simp, ?_, ?_⟩
  · have h1 := Nat.mod_lt off hrb
    have h2 : (off % b.rowBytes + 1) * ppb b.depth ≤ b.rowBytes * ppb b.depth := Nat.mul_le_mul_right _ h1
    have h3 : (off % b.rowBytes + 1) * ppb b.depth = off % b.rowBytes * ppb b.depth + ppb b.depth := by ring
    simp only [Buffer.lanesPerRow]
    omega
  · rw [Nat.div_lt_iff_lt_mul hrb]; rwa [hlen] at h
  · simp only [Buffer.byteOff, Nat.mul_div_cancel _ (ppb_pos b.depth)]
    rw [Nat.mul_comm]; exact Nat.div_add_mod off b.rowBytes

/-! ### One pixel write -/

/-- A pixel write changes the byte of its pixel only (rule R48). -/
theorem Buffer.readByte_pixWrite_other (b : Buffer) (x y : Nat) (v : Int) (off : Nat) (h : b.byteOff x y ≠ off) :
    (b.pixWrite x y v).readByte off = b.readByte off :=
  Memory.read_write_other _ _ _ _ (Ne.symm h)

/-- What every lane reads after a pixel write: `v & mask` at the pixel written, its old value at every other lane
(rule R48). -/
theorem Buffer.pixRead_pixWrite (b : Buffer) (hb : b.data.wf = true) (x y x' y' : Nat) (v : Int)
    (hx : x < b.lanesPerRow) (hx' : x' < b.lanesPerRow) :
    (b.pixWrite x y v).pixRead x' y' = if x' = x ∧ y' = y then truncate b.depth v else b.pixRead x' y' := by
  have hp := ppb_pos b.depth
  have hoff : (b.pixWrite x y v).byteOff x' y' = b.byteOff x' y' := (b.pixWrite_sameShape x y v).byteOff_eq x' y'
  unfold Buffer.pixRead
  rw [hoff, Buffer.pixWrite_depth]
  by_cases hb' : b.byteOff x' y' = b.byteOff x y
  · obtain ⟨hdiv, hy⟩ := b.byteOff_inj x' y' x y hx' hx hb'
    have hread : (b.pixWrite x y v).readByte (b.byteOff x y)
        = laneWrite b.depth (x % ppb b.depth) v (b.readByte (b.byteOff x y)) :=
      Memory.read_write_self _ _ _ hb
    rw [hb', hread]
    by_cases hm : x' % ppb b.depth = x % ppb b.depth
    · have hxx : x' = x := by
        rw [← Nat.div_add_mod x' (ppb b.depth), ← Nat.div_add_mod x (ppb b.depth), hdiv, hm]
      rw [if_pos ⟨hxx, hy⟩, hm, laneRead_laneWrite_self_toNat _ _ (Nat.mod_lt _ hp)]
    · have hxx : x' ≠ x := fun h => hm (by rw [h])
      rw [if_neg (by simp [hxx]), laneRead_laneWrite_other _ _ _ (Nat.mod_lt _ hp) hm]
  · rw [b.readByte_pixWrite_other x y v _ (Ne.symm hb'), if_neg]
    rintro ⟨rfl, rfl⟩
    exact hb' rfl

theorem Buffer.pixWrite_wf (b : Buffer) (hb : b.data.wf = true) (x y : Nat) (v : Int) :
    (b.pixWrite x y v).data.wf = true :=
  Memory.wf_write _ _ _ hb

theorem Buffer.pixWriteClipped_wf (b : Buffer) (hb : b.data.wf = true) (x y v : Int) :
    (b.pixWriteClipped x y v).data.wf = true := by
  unfold Buffer.pixWriteClipped
  split
  · exact b.pixWrite_wf hb _ _ _
  · exact hb

theorem Buffer.pixWriteClipped_below (b : Buffer) (hb : b.data.below b.len = true) (x y v : Int) :
    (b.pixWriteClipped x y v).data.below b.len = true := by
  unfold Buffer.pixWriteClipped
  split
  · rename_i hin
    rw [Buffer.inBounds_iff] at hin
    refine Memory.below_write _ _ _ _ hb (b.byteOff_lt_len _ _ ?_ ?_)
    · have := b.w_le_lanesPerRow; omega
    · omega
  · exact hb

/-- A pixel value is in the domain of its depth (rule R45). -/
theorem Buffer.pixRead_lt (b : Buffer) (x y : Nat) : b.pixRead x y < 2 ^ bitsOf b.depth := laneRead_lt _ _ _

/-! ### A list of pixel writes -/

theorem Buffer.writeAll_wf (b : Buffer) (hb : b.data.wf = true) (ws : List PixelWrite) :
    (b.writeAll ws).data.wf = true := by
  induction ws generalizing b with
  | nil => exact hb
  | cons q ws ih => exact ih _ (b.pixWriteClipped_wf hb _ _ _)

theorem Buffer.writeAll_below (b : Buffer) (hb : b.data.below b.len = true) (ws : List PixelWrite) :
    (b.writeAll ws).data.below b.len = true := by
  induction ws generalizing b with
  | nil => exact hb
  | cons q ws ih =>
    have hlen := (b.pixWriteClipped_sameShape q.x q.y q.v).len_eq
    have := ih (b.pixWriteClipped q.x q.y q.v) (by rw [hlen]; exact b.pixWriteClipped_below hb _ _ _)
    rwa [hlen] at this

/-- The value the last of the writes at `(x, y)` asks for, if there is one. -/
def lastWrite : List PixelWrite → Int → Int → Option Int
  | [], _, _ => none
  | q :: ws, x, y =>
    match lastWrite ws x y with
    | some v => some v
    | none => if q.x = x ∧ q.y = y then some q.v else none

theorem lastWrite_eq_none (ws : List PixelWrite) (x y : Int) (h : ∀ q ∈ ws, ¬(q.x = x ∧ q.y = y)) :
    lastWrite ws x y = none := by
  induction ws with
  | nil => rfl
  | cons q ws ih =>
    simp only [lastWrite, ih fun q hq => h q (List.mem_cons_of_mem _ hq), h q List.mem_cons_self, if_false]

/-- Where every write at `(x, y)` asks for the same value and there is one, that value is the last one. -/
theorem lastWrite_eq_some (ws : List PixelWrite) (x y v : Int) (h : ∀ q ∈ ws, q.x = x → q.y = y → q.v = v)
    (hex : ∃ q ∈ ws, q.x = x ∧ q.y = y) : lastWrite ws x y = some v := by
  induction ws with
  | nil => obtain ⟨q, hq, -⟩ := hex; cases hq
  | cons q ws ih =>
    simp only [lastWrite]
    by_cases hws : ∃ q ∈ ws, q.x = x ∧ q.y = y
    · rw [ih (fun q hq => h q (List.mem_cons_of_mem _ hq)) hws]
    · have hnone : lastWrite ws x y = none := lastWrite_eq_none ws x y fun q hq hc => hws ⟨q, hq, hc⟩
      obtain ⟨q', hq', hc⟩ := hex
      rcases List.mem_cons.mp hq' with rfl | hmem
      · rw [hnone]
        simp [hc, h q' List.mem_cons_self hc.1 hc.2]
      · exact absurd ⟨q', hmem, hc⟩ hws

/-- What every lane reads after a list of writes: at a pixel of the buffer the last value written there, masked, and
its old value where nothing was written; at a padding lane always its old value (rules R46, R48, R49). -/
theorem Buffer.pixRead_writeAll (b : Buffer) (hb : b.data.wf = true) (ws : List PixelWrite) (x y : Nat)
    (hx : x < b.lanesPerRow) :
    (b.writeAll ws).pixRead x y =
      if x < b.w ∧ y < b.h then
        match lastWrite ws x y with
        | some v => truncate b.depth v
        | none => b.pixRead x y
      else b.pixRead x y := by
  induction ws generalizing b with
  | nil => simp [lastWrite]
  | cons q ws ih =>
    have hs := b.pixWriteClipped_sameShape q.x q.y q.v
    rw [Buffer.writeAll_cons, ih _ (b.pixWriteClipped_wf hb _ _ _) (by rw [hs.lanesPerRow_eq]; exact hx),
      hs.w_eq, hs.h_eq, hs.depth]
    have hone : (b.pixWriteClipped q.x q.y q.v).pixRead x y =
        if (x < b.w ∧ y < b.h) ∧ q.x = x ∧ q.y = y then truncate b.depth q.v else b.pixRead x y := by
      unfold Buffer.pixWriteClipped
      by_cases hin : b.inBounds q.x q.y = true
      · have hin' := (b.inBounds_iff _ _).mp hin
        rw [if_pos hin, b.pixRead_pixWrite hb _ _ _ _ _ (by have := b.w_le_lanesPerRow; omega) hx]
        by_cases hc : q.x = x ∧ q.y = y
        · rw [if_pos (by omega), if_pos ⟨by omega, hc⟩]
        · rw [if_neg (by omega), if_neg (fun h => hc h.2)]
      · rw [if_neg hin, if_neg]
        rintro ⟨⟨hxw, hyh⟩, hqx, hqy⟩
        exact hin ((b.inBounds_iff _ _).mpr ⟨by omega, by omega, by omega, by omega⟩)
    simp only [lastWrite]
    by_cases hin : x < b.w ∧ y < b.h
    · rw [if_pos hin, if_pos hin]
      cases hl : lastWrite ws x y with
      | some v => rfl
      | none =>
        simp only [hone]
        by_cases hc : q.x = x ∧ q.y = y
        · simp [hin, hc]
        · rw [if_neg (fun h => hc h.2), if_neg hc]
    · rw [if_neg hin, if_neg hin, hone, if_neg (fun h => hin h.1)]

/-- A byte that holds none of the pixels written, in bounds, keeps its value (rules R48, R49). -/
theorem Buffer.readByte_writeAll_other (b : Buffer) (ws : List PixelWrite) (off : Nat)
    (h : ∀ q ∈ ws, b.inBounds q.x q.y = true → b.byteOff q.x.toNat q.y.toNat ≠ off) :
    (b.writeAll ws).readByte off = b.readByte off := by
  induction ws generalizing b with
  | nil => rfl
  | cons q ws ih =>
    have hs := b.pixWriteClipped_sameShape q.x q.y q.v
    rw [Buffer.writeAll_cons, ih _ fun q' hq' => by
      rw [hs.inBounds_eq, hs.byteOff_eq]; exact h q' (List.mem_cons_of_mem _ hq')]
    unfold Buffer.pixWriteClipped
    split
    · rename_i hin
      exact b.readByte_pixWrite_other _ _ _ _ (h q List.mem_cons_self hin)
    · rfl

/-- Writes outside the buffer change nothing: only those in bounds count, in the same order (rule R49). -/
theorem Buffer.writeAll_filter_inBounds (b : Buffer) (ws : List PixelWrite) :
    b.writeAll (ws.filter fun q => b.inBounds q.x q.y) = b.writeAll ws := by
  induction ws generalizing b with
  | nil => rfl
  | cons q ws ih =>
    have hs := b.pixWriteClipped_sameShape q.x q.y q.v
    have hf : (fun q' : PixelWrite => b.inBounds q'.x q'.y)
        = fun q' : PixelWrite => (b.pixWriteClipped q.x q.y q.v).inBounds q'.x q'.y := by
      funext q'; rw [hs.inBounds_eq]
    by_cases hin : b.inBounds q.x q.y = true
    · rw [List.filter_cons_of_pos (by simpa using hin), Buffer.writeAll_cons, hf, ih, Buffer.writeAll_cons]
    · rw [List.filter_cons_of_neg (by simpa using hin), ih, Buffer.writeAll_cons]
      congr 1
      unfold Buffer.pixWriteClipped
      rw [if_neg hin]

/-- The coordinates of a rectangle. -/
theorem mem_grid (w h x y : Nat) : (x, y) ∈ grid w h ↔ x < w ∧ y < h := by
  simp only [grid, List.mem_flatMap, List.mem_map, List.mem_range, Prod.mk.injEq]
  constructor
  · rintro ⟨y', hy', x', hx', rfl, rfl⟩; exact ⟨hx', hy'⟩
  · rintro ⟨hx, hy⟩; exact ⟨y, hy, x, hx, rfl, rfl⟩

theorem mem_grid_pair (w h : Nat) (q : Nat × Nat) : q ∈ grid w h ↔ q.1 < w ∧ q.2 < h := mem_grid w h q.1 q.2

/-! ### Fresh buffers, and equality of buffers -/

theorem Buffer.zeroed_w (w h : Nat) (d : Depth) (hw : w < 65536) : (Buffer.zeroed w h d).w = w := by
  simp [Buffer.zeroed, Buffer.w, Nat.mod_eq_of_lt hw]

theorem Buffer.zeroed_h (w h : Nat) (d : Depth) (hh : h < 65536) : (Buffer.zeroed w h d).h = h := by
  simp [Buffer.zeroed, Buffer.h, Nat.mod_eq_of_lt hh]

@[simp] theorem Buffer.zeroed_depth (w h : Nat) (d : Depth) : (Buffer.zeroed w h d).depth = d := rfl
@[simp] theorem Buffer.zeroed_data (w h : Nat) (d : Depth) : (Buffer.zeroed w h d).data = [] := rfl

theorem Buffer.zeroed_len (w h : Nat) (d : Depth) (hw : w < 65536) (hh : h < 65536) :
    (Buffer.zeroed w h d).len = dataLen w h d := by
  simp [Buffer.len, Buffer.zeroed_w w h d hw, Buffer.zeroed_h w h d hh]

/-- Every byte of a fresh buffer is 0 (rule R91). -/
theorem Buffer.zeroed_readByte (w h : Nat) (d : Depth) (off : Nat) : (Buffer.zeroed w h d).readByte off = 0#8 := rfl

/-- Every lane of a fresh buffer is 0, padding included (rules R46, R91). -/
theorem Buffer.zeroed_pixRead (w h : Nat) (d : Depth) (x y : Nat) : (Buffer.zeroed w h d).pixRead x y = 0 := by
  simp [Buffer.pixRead, Buffer.zeroed_readByte, laneRead_zero]

/-- Two buffers of one shape with equal lanes hold the same bytes. -/
theorem Buffer.readByte_eq_of_lanes (b b' : Buffer) (hs : b.SameShape b')
    (h : ∀ x y, x < b.lanesPerRow → y < b.h → b'.pixRead x y = b.pixRead x y) (off : Nat) (hoff : off < b.len) :
    b'.readByte off = b.readByte off := by
  obtain ⟨x, y, hx, hx0, hy, rfl⟩ := b.exists_lane_of_lt_len off hoff
  refine byte_ext_of_lanes b.depth _ _ fun k hk => ?_
  have hp := ppb_pos b.depth
  have hmod : (x + k) % ppb b.depth = k := by
    rw [Nat.add_mod, hx0, Nat.zero_add, Nat.mod_mod, Nat.mod_eq_of_lt hk]
  have hdiv : (x + k) / ppb b.depth = x / ppb b.depth := by
    conv_lhs => rw [← Nat.div_add_mod x (ppb b.depth), hx0, Nat.add_zero]
    rw [Nat.mul_add_div hp, Nat.div_eq_of_lt hk, Nat.add_zero]
  have hb : b.byteOff (x + k) y = b.byteOff x y := by simp [Buffer.byteOff, hdiv]
  have hb' : b'.byteOff (x + k) y = b.byteOff x y := by rw [hs.byteOff_eq, hb]
  have := h (x + k) y (by omega) hy
  simp only [Buffer.pixRead, hs.depth, hmod, hb, hb'] at this
  exact BitVec.eq_of_toNat_eq this

/-- Two canonical buffers of one shape with equal lanes are equal. -/
theorem Buffer.ext_of_lanes (b b' : Buffer) (hs : b.SameShape b') (hwf : b.data.wf = true) (hwf' : b'.data.wf = true)
    (hbe : b.data.below b.len = true) (hbe' : b'.data.below b.len = true)
    (h : ∀ x y, x < b.lanesPerRow → y < b.h → b'.pixRead x y = b.pixRead x y) : b' = b := by
  have hdata : b'.data = b.data := by
    refine Memory.ext_of_read _ _ hwf' hwf fun a => ?_
    by_cases ha : a < b.len
    · exact b.readByte_eq_of_lanes b' hs h a ha
    · rw [Memory.read_of_below _ b.len a hbe' (by omega), Memory.read_of_below _ b.len a hbe (by omega)]
  obtain ⟨w, hh, d, m⟩ := b
  obtain ⟨w', hh', d', m'⟩ := b'
  obtain ⟨h1, h2, h3⟩ := hs
  simp_all

end Sys2Proof.Machine
end

