-- ==== Sys2Proof/Laws/Exec.lean ====
section
/-! SUPPORT. What one command can do, said once for `exec`: it takes a fault, changes its one slot, answers a result,
or (NOP) changes nothing. -/

namespace Sys2Proof.Machine

/-- What a command that answers `t` from `s` has done. -/
inductive Effect (i : Instr) (s t : State) : Prop where
  | faulted (c : Cause) (h : t = s.takeFault c)
  | created (r : SlotIx) (b : Buffer) (hr : createdSlot i = some r) (hfree : s.slot r = none)
      (hfits : s.fits b.len = true) (h : t = s.setSlot r (some b))
  | changed (r : SlotIx) (b b' : Buffer) (hr : destSlot i = some r) (hold : s.slot r = some b)
      (hshape : b.SameShape b') (h : t = s.setSlot r (some b'))
  | freed (r : SlotIx) (b : Buffer) (hi : i = .free r) (hold : s.slot r = some b) (h : t = s.setSlot r none)
  | answered (v : Nat) (hw : writesResult i = true) (h : t = s.setRes64 (BitVec.ofNat 64 v))
  | nothing (hi : i = .nop) (h : t = s)

/-- The effects of a command whose body is a paint. -/
theorem effect_paint {i : Instr} {s t : State} {rd : SlotIx} (hd : destSlot i = some rd) (ws : Buffer → List PixelWrite)
    (h : needBuffer rd s (fun b => paint rd b (ws b) s) = .next t) : Effect i s t := by
  rcases (needBuffer_eq _ _ _ _).mp h with ⟨-, rfl⟩ | ⟨b, hb, h⟩
  · exact .faulted _ rfl
  · exact .changed rd b _ hd hb (b.writeAll_sameShape _) ((paint_eq _ _ _ _ _).mp h)

/-- The effects of a doubling command. -/
theorem effect_doubleInto {i : Instr} {s t : State} {rd rs : SlotIx} (hd : createdSlot i = some rd) (kx ky : Nat)
    (h : doubleInto rd rs kx ky s = .next t) : Effect i s t := by
  rcases (needBuffer_eq _ _ _ _).mp h with ⟨-, rfl⟩ | ⟨b, hb, h⟩
  · exact .faulted _ rfl
  rcases (needFree_eq _ _ _ _).mp h with ⟨-, rfl⟩ | ⟨hf, h⟩
  · exact .faulted _ rfl
  rcases (check_eq _ _ _ _ _).mp h with ⟨-, rfl⟩ | ⟨-, h⟩
  · exact .faulted _ rfl
  rcases (install_eq _ _ _ _).mp h with ⟨-, rfl⟩ | ⟨hfit, rfl⟩
  · exact .faulted _ rfl
  exact .created rd _ hd hf hfit rfl

/-- The effects of a drawing command: its checks, then a paint of the destination. -/
theorem effect_draw {i : Instr} {s t : State} {rd rs : SlotIx} (hd : destSlot i = some rd)
    (pre : Buffer → Buffer → Result → Result) (ws : Buffer → List PixelWrite)
    (hpre : ∀ b o go, pre b o go = .next t → (∃ c, t = s.takeFault c) ∨ go = .next t)
    (h : needTwo rd rs s (fun b o => pre b o (paint rd b (ws o) s)) = .next t) : Effect i s t := by
  rcases (needTwo_eq _ _ _ _ _).mp h with ⟨-, rfl⟩ | ⟨b, o, hb, -, h⟩
  · exact .faulted _ rfl
  rcases hpre _ _ _ h with ⟨c, rfl⟩ | h
  · exact .faulted _ rfl
  exact .changed rd b _ hd hb (b.writeAll_sameShape _) ((paint_eq _ _ _ _ _).mp h)

/-- A check in front either faults or goes on. -/
theorem check_faults_or_goes {p : Bool} {c : Cause} {s t : State} {go : Result} (h : check p c s go = .next t) :
    (∃ c, t = s.takeFault c) ∨ go = .next t := by
  rcases (check_eq _ _ _ _ _).mp h with ⟨-, rfl⟩ | ⟨-, h⟩
  · exact .inl ⟨_, rfl⟩
  · exact .inr h

/-- The effects of a command that answers a number about one buffer. -/
theorem effect_answer {i : Instr} {s t : State} {rd : SlotIx} (hw : writesResult i = true)
    (pre : Buffer → Result → Result) (v : Buffer → Nat)
    (hpre : ∀ b go, pre b go = .next t → (∃ c, t = s.takeFault c) ∨ go = .next t)
    (h : needBuffer rd s (fun b => pre b (answer (v b) s)) = .next t) : Effect i s t := by
  rcases (needBuffer_eq _ _ _ _).mp h with ⟨-, rfl⟩ | ⟨b, -, h⟩
  · exact .faulted _ rfl
  rcases hpre _ _ h with ⟨c, rfl⟩ | h
  · exact .faulted _ rfl
  exact .answered _ hw ((answer_eq _ _ _).mp h)

/-- The inversion of `exec`: what a command that answers a next state has done. -/
theorem exec_effect (i : Instr) (s t : State) (h : exec i s = .next t) : Effect i s t := by
  cases i with
  | nop => cases h; exact .nothing rfl rfl
  | alloc rd dc =>
    rcases (needFree_eq _ _ _ _).mp h with ⟨-, rfl⟩ | ⟨hf, h⟩
    · exact .faulted _ rfl
    rcases check_faults_or_goes h with ⟨c, rfl⟩ | h
    · exact .faulted _ rfl
    rcases (install_eq _ _ _ _).mp h with ⟨-, rfl⟩ | ⟨hfit, rfl⟩
    · exact .faulted _ rfl
    exact .created rd _ rfl hf hfit rfl
  | free rd =>
    rcases (needBuffer_eq _ _ _ _).mp h with ⟨-, rfl⟩ | ⟨b, hb, h⟩
    · exact .faulted _ rfl
    · cases h; exact .freed rd b rfl hb rfl
  | ldb rd =>
    exact effect_answer (rd := rd) rfl (fun b => check (offsetOutOfRange b s.opX) .offsetRange s)
      (fun b => (b.readByte s.opX.toNat).toNat) (fun _ _ => check_faults_or_goes) h
  | stb rd =>
    rcases (needBuffer_eq _ _ _ _).mp h with ⟨-, rfl⟩ | ⟨b, hb, h⟩
    · exact .faulted _ rfl
    rcases check_faults_or_goes h with ⟨c, rfl⟩ | h
    · exact .faulted _ rfl
    cases h; exact .changed rd b (b.writeByte s.opX.toNat (lowByte s.opC)) rfl hb ⟨rfl, rfl, rfl⟩ rfl
  | xlut dc => exact .answered _ rfl ((answer_eq _ _ _).mp h)
  | getpixel rd =>
    exact effect_answer (rd := rd) rfl (fun b => check (!b.inBounds s.opX s.opY) .coordRange s)
      (fun b => b.pixRead s.opX.toNat s.opY.toNat) (fun _ _ => check_faults_or_goes) h
  | setpixel rd =>
    rcases (needBuffer_eq _ _ _ _).mp h with ⟨-, rfl⟩ | ⟨b, hb, h⟩
    · exact .faulted _ rfl
    rcases check_faults_or_goes h with ⟨c, rfl⟩ | h
    · exact .faulted _ rfl
    cases h; exact .changed rd b (b.pixWrite s.opX.toNat s.opY.toNat s.opC) rfl hb ⟨rfl, rfl, rfl⟩ rfl
  | width rd =>
    exact effect_answer (rd := rd) rfl (fun _ go => go) (fun b => b.w) (fun _ _ => .inr) h
  | height rd =>
    exact effect_answer (rd := rd) rfl (fun _ go => go) (fun b => b.h) (fun _ _ => .inr) h
  | ismono rd =>
    exact effect_answer (rd := rd) rfl (fun _ go => go) (fun b => boolResult (b.depth == .d1))
      (fun _ _ => .inr) h
  | clone rd rs =>
    rcases (needBuffer_eq _ _ _ _).mp h with ⟨-, rfl⟩ | ⟨b, hb, h⟩
    · exact .faulted _ rfl
    rcases (needFree_eq _ _ _ _).mp h with ⟨-, rfl⟩ | ⟨hf, h⟩
    · exact .faulted _ rfl
    rcases (install_eq _ _ _ _).mp h with ⟨-, rfl⟩ | ⟨hfit, rfl⟩
    · exact .faulted _ rfl
    exact .created rd _ rfl hf hfit rfl
  | copyfrom rd rs =>
    rcases (needBuffer_eq _ _ _ _).mp h with ⟨-, rfl⟩ | ⟨b, hb, h⟩
    · exact .faulted _ rfl
    rcases (needBuffer_eq _ _ _ _).mp h with ⟨-, rfl⟩ | ⟨o, ho, h⟩
    · exact .faulted _ rfl
    rcases check_faults_or_goes h with ⟨c, rfl⟩ | h
    · exact .faulted _ rfl
    cases h; exact .changed rd b { b with data := o.data } rfl hb ⟨rfl, rfl, rfl⟩ rfl
  | fill rd => exact effect_paint rfl (fun b => fillWrites b s.opC) h
  | fillrect rd => exact effect_paint rfl (fun b => fillrectWrites b s.opX s.opY s.opW s.opH s.opC) h
  | flipx rd => exact effect_paint rfl flipxWrites h
  | flipy rd => exact effect_paint rfl flipyWrites h
  | scroll rd => exact effect_paint rfl (fun b => scrollWrites b s.opX s.opY) h
  | doubledx rd rs => exact effect_doubleInto rfl 2 1 h
  | doubledy rd rs => exact effect_doubleInto rfl 1 2 h
  | doubled rd rs => exact effect_doubleInto rfl 2 2 h
  | replace rd => exact effect_paint rfl (fun b => replaceWrites b s.opC s.opC2) h
  | drawimage rd rs =>
    refine effect_draw (rd := rd) (rs := rs) rfl
      (fun b o go => check (rd == rs) .alias_ s (check (strictMismatch s b o) .depthMismatch s go))
      (fun o => drawimageWrites o s.opX s.opY) (fun _ _ _ h => ?_) h
    rcases check_faults_or_goes h with hc | h
    · exact .inl hc
    · exact check_faults_or_goes h
  | drawtransparent rd rs =>
    refine effect_draw (rd := rd) (rs := rs) rfl
      (fun b o go => check (rd == rs) .alias_ s (check (strictMismatch s b o) .depthMismatch s go))
      (fun o => drawtransparentWrites o s.opX s.opY) (fun _ _ _ h => ?_) h
    rcases check_faults_or_goes h with hc | h
    · exact .inl hc
    · exact check_faults_or_goes h
  | overlaps rd rs =>
    rcases (needTwo_eq _ _ _ _ _).mp h with ⟨-, rfl⟩ | ⟨b, o, -, -, h⟩
    · exact .faulted _ rfl
    · exact .answered _ rfl ((answer_eq _ _ _).mp h)
  | drawcore rd rs =>
    exact effect_draw (rd := rd) (rs := rs) rfl (fun _ _ => check (rd == rs) .alias_ s)
      (fun o => drawcoreWrites o s.opX s.opY s.opC) (fun _ _ _ => check_faults_or_goes) h

end Sys2Proof.Machine
end

