-- ==== Sys2Proof/Laws/PerInstr.lean ====
section
/-! SUPPORT. The per-instruction families of `LAWS.json`: a statement about the syntax of every instruction, one lemma
for each constructor. -/

/-- The word a command is encoded to is well formed by rule R74, whatever its operands: zero field 0, opcode assigned,
unused fields 0. -/
def Sys2Proof.Laws.EncodedFieldsAreLegal.Statement (i : Sys2Proof.Instr) : Prop := i.fields.wellFormed = true

namespace Sys2Proof.Laws.EncodedFieldsAreLegal

theorem nop : Statement .nop := rfl
theorem alloc (rd : SlotIx) (dc : Depth) : Statement (.alloc rd dc) := rfl
theorem free (rd : SlotIx) : Statement (.free rd) := rfl
theorem ldb (rd : SlotIx) : Statement (.ldb rd) := rfl
theorem stb (rd : SlotIx) : Statement (.stb rd) := rfl
theorem xlut (dc : Depth) : Statement (.xlut dc) := rfl
theorem getpixel (rd : SlotIx) : Statement (.getpixel rd) := rfl
theorem setpixel (rd : SlotIx) : Statement (.setpixel rd) := rfl
theorem width (rd : SlotIx) : Statement (.width rd) := rfl
theorem height (rd : SlotIx) : Statement (.height rd) := rfl
theorem ismono (rd : SlotIx) : Statement (.ismono rd) := rfl
theorem clone (rd : SlotIx) (rs : SlotIx) : Statement (.clone rd rs) := rfl
theorem copyfrom (rd : SlotIx) (rs : SlotIx) : Statement (.copyfrom rd rs) := rfl
theorem fill (rd : SlotIx) : Statement (.fill rd) := rfl
theorem fillrect (rd : SlotIx) : Statement (.fillrect rd) := rfl
theorem flipx (rd : SlotIx) : Statement (.flipx rd) := rfl
theorem flipy (rd : SlotIx) : Statement (.flipy rd) := rfl
theorem scroll (rd : SlotIx) : Statement (.scroll rd) := rfl
theorem doubledx (rd : SlotIx) (rs : SlotIx) : Statement (.doubledx rd rs) := rfl
theorem doubledy (rd : SlotIx) (rs : SlotIx) : Statement (.doubledy rd rs) := rfl
theorem doubled (rd : SlotIx) (rs : SlotIx) : Statement (.doubled rd rs) := rfl
theorem replace (rd : SlotIx) : Statement (.replace rd) := rfl
theorem drawimage (rd : SlotIx) (rs : SlotIx) : Statement (.drawimage rd rs) := rfl
theorem drawtransparent (rd : SlotIx) (rs : SlotIx) : Statement (.drawtransparent rd rs) := rfl
theorem overlaps (rd : SlotIx) (rs : SlotIx) : Statement (.overlaps rd rs) := rfl
theorem drawcore (rd : SlotIx) (rs : SlotIx) : Statement (.drawcore rd rs) := rfl

end Sys2Proof.Laws.EncodedFieldsAreLegal
end

