-- ==== Sys2Proof/Laws/Repaint.lean ====
section
/-! SUPPORT. A list of pixel writes as a repainting: what the shared operation `writeAll`, and so `paint`, does to a
buffer, said once; and the last write of a list made from a rectangle of coordinates. -/

namespace Sys2Proof.Machine

theorem lastWrite_ne_none (ws : List PixelWrite) (q : PixelWrite) (h : q ∈ ws) : lastWrite ws q.x q.y ≠ none := by
  induction ws with
  | nil => cases h
  | cons q' ws ih =>
    simp only [lastWrite]
    rcases List.mem_cons.mp h with rfl | hmem
    · cases lastWrite ws q.x q.y <;> simp
    · cases hl : lastWrite ws q.x q.y with
      | some v => simp
      | none => exact absurd hl (ih hmem)

/-- Applying a list of writes repaints exactly the pixels of the buffer the list names, each with its last value. -/
theorem Buffer.writeAll_repaints (b : Buffer) (hb : b.data.wf = true) (ws : List PixelWrite)
    (f : Nat → Nat → Option Int) (hf : ∀ x y : Nat, x < b.w → y < b.h → lastWrite ws x y = f x y) :
    b.Repaints (b.writeAll ws) f where
  shape := b.writeAll_sameShape ws
  painted x y v hx hy hv := by
    rw [b.pixRead_writeAll hb ws x y (lt_of_lt_of_le hx b.w_le_lanesPerRow), if_pos ⟨hx, hy⟩, hf x y hx hy, hv]
  kept x y hx hy hv := by
    rw [b.pixRead_writeAll hb ws x y (lt_of_lt_of_le hx b.w_le_lanesPerRow), if_pos ⟨hx, hy⟩, hf x y hx hy, hv]
  padding x y hx hl _ := by
    rw [b.pixRead_writeAll hb ws x y hl, if_neg (by omega)]
  bytes off h := by
    refine b.readByte_writeAll_other ws off fun q hq hin => ?_
    rw [Buffer.inBounds_iff] at hin
    refine h _ _ (by omega) (by omega) ?_
    rw [← hf _ _ (by omega) (by omega)]
    have hx : ((q.x.toNat : Nat) : Int) = q.x := by omega
    have hy : ((q.y.toNat : Nat) : Int) = q.y := by omega
    rw [hx, hy]
    exact lastWrite_ne_none ws q hq

/-- Writes made one for each of a list of coordinates, at places that no two share, with at most the coordinate's own
value at its place: the last write at the place of a coordinate of the list is its value. -/
theorem lastWrite_map_some {α : Type} (l : List α) (g : α → PixelWrite) (a : α) (ha : a ∈ l)
    (hinj : ∀ c ∈ l, (g c).x = (g a).x → (g c).y = (g a).y → (g c).v = (g a).v) :
    lastWrite (l.map g) (g a).x (g a).y = some (g a).v := by
  refine lastWrite_eq_some _ _ _ _ ?_ ⟨g a, List.mem_map_of_mem ha, rfl, rfl⟩
  intro q hq hx hy
  obtain ⟨c, hc, rfl⟩ := List.mem_map.mp hq
  exact hinj c hc hx hy

/-- Where no coordinate of the list has its place at `(x, y)`, nothing is written there. -/
theorem lastWrite_map_none {α : Type} (l : List α) (g : α → PixelWrite) (x y : Int)
    (h : ∀ c ∈ l, ¬((g c).x = x ∧ (g c).y = y)) : lastWrite (l.map g) x y = none := by
  refine lastWrite_eq_none _ _ _ fun q hq => ?_
  obtain ⟨c, hc, rfl⟩ := List.mem_map.mp hq
  exact h c hc

/-- Writes at the pixels of a whole buffer, one each: at every pixel of it the value asked for there. -/
theorem lastWrite_grid (w h : Nat) (v : Nat × Nat → Int) (x y : Nat) (hx : x < w) (hy : y < h) :
    lastWrite ((grid w h).map fun q => ⟨q.1, q.2, v q⟩) x y = some (v (x, y)) := by
  refine lastWrite_map_some (grid w h) (fun q => (⟨q.1, q.2, v q⟩ : PixelWrite)) (x, y) ((mem_grid w h x y).mpr ⟨hx, hy⟩) ?_
  rintro ⟨x', y'⟩ - hx' hy'
  simp only [Nat.cast_inj] at hx' hy'
  rw [hx', hy']

/-- Writes at a filtered rectangle of coordinates moved by `(dx, dy)`: the value asked for at a coordinate of it. -/
theorem lastWrite_moved_some (w h : Nat) (p : Nat × Nat → Bool) (dx dy : Int) (v : Nat × Nat → Int) (i j : Nat)
    (hi : i < w) (hj : j < h) (hp : p (i, j) = true) (x y : Int) (hx : x = dx + i) (hy : y = dy + j) :
    lastWrite (((grid w h).filter p).map fun q => ⟨dx + q.1, dy + q.2, v q⟩) x y = some (v (i, j)) := by
  subst hx hy
  refine lastWrite_map_some _ (fun q : Nat × Nat => (⟨dx + q.1, dy + q.2, v q⟩ : PixelWrite)) (i, j)
    (List.mem_filter.mpr ⟨(mem_grid w h i j).mpr ⟨hi, hj⟩, hp⟩) ?_
  rintro ⟨i', j'⟩ - hx' hy'
  simp only [add_right_inj, Nat.cast_inj] at hx' hy'
  rw [hx', hy']

/-- Writes at a filtered rectangle moved by `(dx, dy)`: none where no coordinate of it lands. -/
theorem lastWrite_moved_none (w h : Nat) (p : Nat × Nat → Bool) (dx dy : Int) (v : Nat × Nat → Int) (x y : Int)
    (hno : ∀ i j : Nat, i < w → j < h → p (i, j) = true → ¬(x = dx + i ∧ y = dy + j)) :
    lastWrite (((grid w h).filter p).map fun q => ⟨dx + q.1, dy + q.2, v q⟩) x y = none := by
  refine lastWrite_map_none _ (fun q : Nat × Nat => (⟨dx + q.1, dy + q.2, v q⟩ : PixelWrite)) x y ?_
  rintro ⟨i, j⟩ hmem ⟨hx, hy⟩
  obtain ⟨hg, hp⟩ := List.mem_filter.mp hmem
  obtain ⟨hi, hj⟩ := (mem_grid w h i j).mp hg
  exact hno i j hi hj hp ⟨hx.symm, hy.symm⟩

/-- The invariant of one buffer, taken apart (rule R31). -/
theorem Buffer.ok_iff (b : Buffer) :
    b.ok = true ↔ 1 ≤ b.w ∧ 1 ≤ b.h ∧ b.data.wf = true ∧ b.data.below b.len = true := by
  simp [Buffer.ok, and_assoc]

/-- A list of pixel writes keeps the invariant of a buffer. -/
theorem Buffer.writeAll_ok (b : Buffer) (hb : b.ok = true) (ws : List PixelWrite) : (b.writeAll ws).ok = true := by
  obtain ⟨h1, h2, h3, h4⟩ := b.ok_iff.mp hb
  have hs := b.writeAll_sameShape ws
  rw [Buffer.ok_iff, hs.w_eq, hs.h_eq, hs.len_eq]
  exact ⟨h1, h2, b.writeAll_wf h3 ws, b.writeAll_below h4 ws⟩

/-- The invariant of every slot, taken apart (rule R31). -/
theorem State.slotsOk_iff (s : State) : s.slotsOk = true ↔ ∀ r b, s.slot r = some b → b.ok = true := by
  simp only [State.slotsOk, List.all_eq_true, State.slot]
  constructor
  · intro h r b hb
    have := h (some b) (by rw [← hb]; simp)
    simpa using this
  · intro h o ho
    obtain ⟨n, hn, rfl⟩ := List.getElem_of_mem ho
    cases hs : s.slots.toList[n] with
    | none => rfl
    | some b => exact h ⟨n, by simpa using hn⟩ b (by simpa using hs)

end Sys2Proof.Machine
end

