-- ==== Sys2Proof/Tests/Slice0.lean ====
section
/-! SUPPORT. The model's own tests: the well-formedness checks, the decoder on words written out from the encoding
tables, one or two vectors of `95_test_vectors.md` for each command, and for every statement that has hypotheses a
concrete state and operands that meet them. Expected values are the spec's, from the vector or example each comment
names. -/

namespace Sys2Proof.Tests

open Sys2Proof Sys2Proof.Machine

/-! ## Helpers -/

/-- The state an outcome answers, if it does. -/
def stateOf : Result → Option State
  | .next s => some s
  | .fault _ => none
  | .refused _ => none

/-- The refusal an outcome answers, if it does. -/
def refusalOf : Result → Option Refusal
  | .next _ => none
  | .fault _ => none
  | .refused r => some r

/-- The data of a slot after an outcome. -/
def dataOf (r : Result) (q : SlotIx) : Option Memory := (stateOf r).bind fun s => (s.slot q).map Buffer.data

/-- `RES` and `RESH` after an outcome. -/
def resOf (r : Result) : Option (Word × Word) := (stateOf r).map fun s => (s.regs.res, s.regs.resh)

/-- `STATUS.FAULT` and `CAUSE` after an outcome. -/
def causeOf (r : Result) : Option (Bool × Byte) := (stateOf r).map fun s => (s.fault, s.cause)

/-- E5 of `43_rectangular.md`: 5 x 2 at depth 4, pixel `(x, y)` = `1 + x + 5*y`. -/
def e5 : Buffer := ⟨5, 2, .d4, [(0, 0x21), (1, 0x43), (2, 0x05), (3, 0x76), (4, 0x98), (5, 0x0A)]⟩

/-- D4 of `44_composition.md`: 4 x 2 at depth 4, every pixel 7. -/
def d4 : Buffer := ⟨4, 2, .d4, [(0, 0x77), (1, 0x77), (2, 0x77), (3, 0x77)]⟩

/-- M3 of `44_composition.md`: 3 x 2 at depth 1, rows [1, 0, 1] and [0, 1, 0]. -/
def m3 : Buffer := ⟨3, 2, .d1, [(0, 0x05), (1, 0x02)]⟩

/-- The 3 x 1 buffer of rule R146 at depth 2, pixels [1, 2, 3]. -/
def q3 : Buffer := ⟨3, 1, .d2, [(0, 0x39)]⟩

/-- Operand registers `X`, `Y`, `W`, `H`, `C`, `C2` as given, `RES` and `RESH` 0. -/
def ops (x y w h c c2 : Word) : OpRegs := ⟨x, y, w, h, c, c2, 0, 0⟩

/-- The reset state with operand registers and the buffers of slots 0 and 1. -/
def st (r : OpRegs) (b0 b1 : Option Buffer) : State :=
  ({ State.reset with regs := r }.setSlot 0 b0).setSlot 1 b1

/-- `st` with the host about to perform one operation. -/
def at1 (op : HostOp) (s : State) : State := { s with program := [op] }

/-- The state after V60-1: halted by `getpixel b0` at (9, 1). -/
def halted : State :=
  { st (ops 9 1 4 4 0 0) (some ⟨4, 4, .d4, []⟩) none with fault := true, cause := 8, fcmd := 0x10, cmd := 0x10 }

/-! ## Well-formedness: an ill-formed term for each check -/

theorem test_wf_word_zero_field : (⟨0x20, 0, 0, 0, 1⟩ : Fields).wellFormed = false := by decide
theorem test_wf_word_unassigned_op : (⟨0x06, 0, 0, 0, 0⟩ : Fields).wellFormed = false := by decide
theorem test_wf_word_unused_rd : (⟨0x05, 1, 0, 0, 0⟩ : Fields).wellFormed = false := by decide
theorem test_wf_word_unused_rs : (⟨0x20, 0, 1, 0, 0⟩ : Fields).wellFormed = false := by decide
theorem test_wf_word_unused_dc : (⟨0x20, 0, 0, 1, 0⟩ : Fields).wellFormed = false := by decide
theorem test_wf_word_legal : (⟨0x01, 15, 0, 3, 0⟩ : Fields).wellFormed = true := by decide
theorem test_wf_access_size : accessWellFormed 16 0x20 = false := by decide
theorem test_wf_access_alignment : accessWellFormed 32 0x22 = false := by decide
theorem test_wf_access_range : accessWellFormed 32 0x40 = false := by decide
theorem test_wf_access_reserved : accessWellFormed 32 0x18 = false ∧ accessWellFormed 32 0x1C = false := by decide
theorem test_wf_access_last : (HostOp.read 32 0x3C).wellFormed = true ∧ HostOp.rst.wellFormed = true := by decide

/-! ## The decoder: every command's word written out (V30-1, rule R73) -/

theorem test_decode_system :
    decode 0b00000000000000000000000000000000#32 = .ok .nop ∧ decode 0b00000000000000110000111100000001#32 = .ok (.alloc 15 .d8) ∧
    decode 0b00000000000000000000011100000010#32 = .ok (.free 7) ∧ decode 0b00000000000000000000000100000011#32 = .ok (.ldb 1) ∧
    decode 0b00000000000000000000000100000100#32 = .ok (.stb 1) ∧ decode 0b00000000000000110000000000000101#32 = .ok (.xlut .d8) := by
  decide

theorem test_decode_pixel_buffer :
    decode 0x00000210#32 = .ok (.getpixel 2) ∧ decode 0x00000211#32 = .ok (.setpixel 2) ∧
    decode 0x00000112#32 = .ok (.width 1) ∧ decode 0x00000113#32 = .ok (.height 1) ∧
    decode 0x00000114#32 = .ok (.ismono 1) ∧ decode 0x00000315#32 = .ok (.clone 3 0) ∧
    decode 0x00001016#32 = .ok (.copyfrom 0 1) := by
  decide

theorem test_decode_rectangular :
    decode 0x00000020#32 = .ok (.fill 0) ∧ decode 0x00000021#32 = .ok (.fillrect 0) ∧
    decode 0x00000022#32 = .ok (.flipx 0) ∧ decode 0x00000023#32 = .ok (.flipy 0) ∧
    decode 0x00000024#32 = .ok (.scroll 0) ∧ decode 0x00001225#32 = .ok (.doubledx 2 1) ∧
    decode 0x00001226#32 = .ok (.doubledy 2 1) ∧ decode 0x00000127#32 = .ok (.doubled 1 0) ∧
    decode 0x00000128#32 = .ok (.replace 1) := by
  decide

theorem test_decode_composition :
    decode 0x00001030#32 = .ok (.drawimage 0 1) ∧ decode 0x00001031#32 = .ok (.drawtransparent 0 1) ∧
    decode 0x00001032#32 = .ok (.overlaps 0 1) ∧ decode 0x0000EF33#32 = .ok (.drawcore 15 14) := by
  decide

/-- V30-2: illegal words, by the reason each is one. -/
theorem test_decode_rejects :
    decode 0x00000100#32 = .error .unusedRd ∧ decode 0x00001020#32 = .error .unusedRs ∧
    decode 0x00010020#32 = .error .unusedDc ∧ decode 0x00040001#32 = .error .zeroFieldSet ∧
    decode 0x00000105#32 = .error .unusedRd ∧ decode 0x00001001#32 = .error .unusedRs ∧
    decode 0x00011030#32 = .error .unusedDc ∧ decode 0x00000006#32 = .error .unassignedOp ∧
    decode 0x00000017#32 = .error .unassignedOp ∧ decode 0x000000FF#32 = .error .unassignedOp ∧
    decode 0x80000000#32 = .error .zeroFieldSet ∧ decode 0xFFFFFFFF#32 = .error .zeroFieldSet := by
  decide

/-- The encoder gives rule R73's example words. -/
theorem test_encode_examples :
    encode (.fillrect 0) = 0x00000021#32 ∧ encode (.drawtransparent 0 1) = 0x00001031#32 ∧
    encode (.alloc 2 .d4) = 0x00020201#32 ∧ encode (.xlut .d1) = 0x00000005#32 ∧
    encode (.clone 3 0) = 0x00000315#32 := by
  decide

/-- Rule R75: 26 opcodes are assigned, 230 are not. -/
theorem test_assigned_opcodes : (opcodeForms.map Prod.fst).eraseDups.length = 26 ∧ opcodeTable.length = 26 := by decide

theorem test_decodeTableWord : decodeTableWord 32 0x1225 = some (.doubledx 2 1) ∧ decodeTableWord 32 0x06 = none := by
  decide

/-! ## Layout (V20-1, V20-2, V20-3, V20-6) -/

theorem test_rowBytes :
    rowBytes 1 .d1 = 1 ∧ rowBytes 9 .d1 = 2 ∧ rowBytes 5 .d2 = 2 ∧ rowBytes 7 .d4 = 4 ∧ rowBytes 160 .d4 = 80 ∧
    rowBytes 3 .d8 = 3 ∧ rowBytes 65535 .d8 = 65535 ∧ rowBytes 65535 .d1 = 8192 := by decide

theorem test_byteOff :
    (Buffer.zeroed 160 128 .d4).byteOff 150 120 = 9675 ∧ (Buffer.zeroed 160 128 .d4).byteOff 159 127 = 10239 ∧
    (Buffer.zeroed 9 2 .d1).byteOff 8 1 = 3 ∧ (Buffer.zeroed 5 2 .d2).byteOff 4 1 = 3 := by decide

/-- V20-3: 4 x 1 at depth 2 from FF: `PixWrite(1, 0)` gives F3, then `PixWrite(2, 6)` gives E3. -/
theorem test_pixWrite_disturbs_no_neighbour :
    ((⟨4, 1, .d2, [(0, 0xFF)]⟩ : Buffer).pixWrite 1 0 0).data = [(0, 0xF3)] ∧
    (((⟨4, 1, .d2, [(0, 0xFF)]⟩ : Buffer).pixWrite 1 0 0).pixWrite 2 0 6).data = [(0, 0xE3)] := by decide

/-- V20-4: the low bits of any integer are kept. -/
theorem test_truncate :
    truncate .d4 0x1F = 15 ∧ truncate .d4 (-16) = 0 ∧ truncate .d1 2 = 0 ∧ truncate .d8 (-1) = 255 ∧
    truncate .d2 (-2) = 2 := by decide

/-- V20-6: the two lane orders on pixels [5, 12] at depth 4. -/
theorem test_lane_orders :
    laneShiftUnder .lsbFirst 0 .d4 = 0 ∧ laneShiftUnder .lsbFirst 1 .d4 = 4 ∧
    laneShiftUnder .msbFirst 0 .d4 = 4 ∧ laneShiftUnder .msbFirst 1 .d4 = 0 := by decide

/-! ## System commands -/

theorem test_nop : stateOf (exec .nop halted) = some halted := by decide

/-- V40-1: `alloc.4 b0, 5, 2` from reset. -/
theorem test_alloc :
    (stateOf (exec (.alloc 0 .d4) (st (ops 0 0 5 2 0 0) none none))).bind (fun s => s.slot 0) =
      some ⟨5, 2, .d4, []⟩ := by decide

/-- V40-2: with `PM_CAPACITY` = 16 and 16 bytes in use, one more byte is `AllocFail`. -/
theorem test_alloc_capacity :
    causeOf (exec (.alloc 1 .d1)
      { st (ops 0 0 1 1 0 0) (some ⟨4, 4, .d8, []⟩) none with pmCapacity := some 16 }) = some (true, 10) ∧
    causeOf (exec (.alloc 0 .d8) { st (ops 0 0 4 4 0 0) none none with pmCapacity := some 16 }) = some (false, 0) := by
  decide

/-- V40-3: FREE of a valid slot, and of a free one (`BadSlot`). -/
theorem test_free :
    (stateOf (exec (.free 0) (st (ops 0 0 0 0 0 0) (some e5) none))).map (fun s => s.slot 0) = some none ∧
    causeOf (exec (.free 0) State.reset) = some (true, 2) := by decide

/-- V40-1: the last offset is 5; 6 and -1 are `OffsetRange`. -/
theorem test_ldb :
    resOf (exec (.ldb 0) (st (ops 5 0 0 0 0 0) (some e5) none)) = some (0x0A, 0) ∧
    causeOf (exec (.ldb 0) (st (ops 6 0 0 0 0 0) (some e5) none)) = some (true, 9) ∧
    causeOf (exec (.ldb 0) (st (ops (-1) 0 0 0 0 0) (some e5) none)) = some (true, 9) := by decide

/-- V40-4: `C` = 0x1FF stores 0xFF, `C` = 0x100 stores 0. -/
theorem test_stb :
    dataOf (exec (.stb 0) (st (ops 0 0 0 0 0x1FF 0) (some ⟨1, 1, .d8, []⟩) none)) 0 = some [(0, 0xFF)] ∧
    dataOf (exec (.stb 0) (st (ops 0 0 0 0 0x100 0) (some ⟨1, 1, .d8, [(0, 0xFF)]⟩) none)) 0 = some [] := by decide

/-! ## The expansion ROM (V42-1, V42-2, V42-4) -/

theorem test_xlut :
    resOf (exec (.xlut .d1) (st (ops 0 0 0 0 0x93 0) none none)) = some (0x00000101, 0x01000001) ∧
    resOf (exec (.xlut .d2) (st (ops 0 0 0 0 0x1B 0) none none)) = some (0x00010203, 0) ∧
    resOf (exec (.xlut .d8) (st (ops 0 0 0 0 0x80 0) none none)) = some (0x80, 0) := by decide

theorem test_xlut_index_truncation :
    resOf (exec (.xlut .d4) (st (ops 0 0 0 0 0x1C5 0) none none)) = some (0x0C05, 0) ∧
    resOf (exec (.xlut .d1) (st (ops 0 0 0 0 (-1) 0) none none)) = some (0x01010101, 0x01010101) := by decide

theorem test_convert_repack :
    convertLanes .d2 .d4 0x1B = [3, 2, 1, 0] ∧ repack .d4 [3, 2] = 0x23 ∧ repack .d4 [1, 0] = 0x01 ∧
    convertLanes .d8 .d4 0x23 = [3] := by decide

/-! ## Packed Pixel Buffer commands -/

/-- V41-1, V41-3. -/
theorem test_getpixel :
    resOf (exec (.getpixel 0) (st (ops 4 0 0 0 0 0) (some ⟨5, 1, .d2, [(1, 0x03)]⟩) none)) = some (3, 0) ∧
    causeOf (exec (.getpixel 0) (st (ops 5 0 0 0 0 0) (some e5) none)) = some (true, 8) := by decide

/-- V41-2: 0x1C at depth 4 stores 0xC beside 5. -/
theorem test_setpixel :
    dataOf (exec (.setpixel 0) (st (ops 1 0 0 0 0x1C 0) (some ⟨2, 1, .d4, [(0, 0x05)]⟩) none)) 0 =
      some [(0, 0xC5)] := by decide

/-- V41-4. -/
theorem test_accessors :
    resOf (exec (.width 0) (st (ops 0 0 0 0 0 0) (some ⟨160, 128, .d4, []⟩) none)) = some (160, 0) ∧
    resOf (exec (.height 0) (st (ops 0 0 0 0 0 0) (some ⟨160, 128, .d4, []⟩) none)) = some (128, 0) ∧
    resOf (exec (.ismono 0) (st (ops 0 0 0 0 0 0) (some ⟨160, 128, .d4, []⟩) none)) = some (0, 0) ∧
    resOf (exec (.ismono 1) (st (ops 0 0 0 0 0 0) none (some m3))) = some (1, 0) := by decide

/-- V41-6: padding is copied; a valid receiver is `SlotBusy`. -/
theorem test_clone :
    dataOf (exec (.clone 1 0) (st (ops 0 0 0 0 0 0) (some ⟨3, 1, .d1, [(0, 0xFD)]⟩) none)) 1 = some [(0, 0xFD)] ∧
    causeOf (exec (.clone 0 0) (st (ops 0 0 0 0 0 0) (some m3) none)) = some (true, 3) ∧
    causeOf (exec (.clone 3 3) State.reset) = some (true, 2) := by decide

/-- V41-7. -/
theorem test_copyfrom :
    dataOf (exec (.copyfrom 0 1) (st (ops 0 0 0 0 0 0) (some ⟨2, 1, .d8, []⟩) (some ⟨2, 1, .d8, [(1, 7)]⟩))) 0 =
      some [(1, 7)] ∧
    causeOf (exec (.copyfrom 0 1) (st (ops 0 0 0 0 0 0) (some ⟨2, 1, .d8, []⟩) (some ⟨1, 2, .d8, []⟩))) =
      some (true, 5) := by decide

/-! ## Rectangular operators (V43-1 to V43-7, from E5) -/

theorem test_fill :
    dataOf (exec (.fill 0) (st (ops 0 0 0 0 0x29 0) (some e5) none)) 0 =
      some [(0, 0x99), (1, 0x99), (2, 0x09), (3, 0x99), (4, 0x99), (5, 0x09)] := by decide

/-- V20-5: padding is preserved: 0xFD filled with 0 is F8. -/
theorem test_fill_padding :
    dataOf (exec (.fill 0) (st (ops 0 0 0 0 0 0) (some ⟨3, 1, .d1, [(0, 0xFD)]⟩) none)) 0 = some [(0, 0xF8)] := by
  decide

theorem test_fillrect :
    dataOf (exec (.fillrect 0) (st (ops 3 (-1) 10 2 0xF 0) (some e5) none)) 0 =
      some [(0, 0x21), (1, 0xF3), (2, 0x0F), (3, 0x76), (4, 0x98), (5, 0x0A)] := by decide

/-- V43-2e to V43-2g: no wrap of the coordinate sums. -/
theorem test_fillrect_extremes :
    dataOf (exec (.fillrect 0) (st (ops 0x80000000 0x80000000 0x7FFFFFFF 0x7FFFFFFF 1 0) (some e5) none)) 0 =
      some e5.data ∧
    dataOf (exec (.fillrect 0) (st (ops 0x7FFFFFFF 0 0x7FFFFFFF 1 1 0) (some e5) none)) 0 = some e5.data ∧
    dataOf (exec (.fillrect 0) (st (ops (-1) (-1) 0x7FFFFFFF 0x7FFFFFFF 0x29 0) (some e5) none)) 0 =
      some [(0, 0x99), (1, 0x99), (2, 0x09), (3, 0x99), (4, 0x99), (5, 0x09)] := by decide

theorem test_flipx :
    dataOf (exec (.flipx 0) (st (ops 0 0 0 0 0 0) (some e5) none)) 0 =
      some [(0, 0x45), (1, 0x23), (2, 0x01), (3, 0x9A), (4, 0x78), (5, 0x06)] := by decide

/-- V20-5: 0xFE at depth 1, width 3, becomes FB. -/
theorem test_flipx_padding :
    dataOf (exec (.flipx 0) (st (ops 0 0 0 0 0 0) (some ⟨3, 1, .d1, [(0, 0xFE)]⟩) none)) 0 = some [(0, 0xFB)] := by
  decide

theorem test_flipy :
    dataOf (exec (.flipy 0) (st (ops 0 0 0 0 0 0) (some e5) none)) 0 =
      some [(0, 0x76), (1, 0x98), (2, 0x0A), (3, 0x21), (4, 0x43), (5, 0x05)] := by decide

theorem test_scroll :
    dataOf (exec (.scroll 0) (st (ops 2 0 0 0 0 0) (some e5) none)) 0 =
      some [(1, 0x21), (2, 0x03), (4, 0x76), (5, 0x08)] ∧
    dataOf (exec (.scroll 0) (st (ops (-1) 1 0 0 0 0) (some e5) none)) 0 = some [(3, 0x32), (4, 0x54)] ∧
    dataOf (exec (.scroll 0) (st (ops 0x80000000 0 0 0 0 0) (some e5) none)) 0 = some [] := by decide

theorem test_doubledx : dataOf (exec (.doubledx 2 1) (st (ops 0 0 0 0 0 0) none (some q3))) 2 =
    some [(0, 0xA5), (1, 0x0F)] := by decide

theorem test_doubledy : dataOf (exec (.doubledy 2 1) (st (ops 0 0 0 0 0 0) none (some q3))) 2 =
    some [(0, 0x39), (1, 0x39)] := by decide

theorem test_doubled : dataOf (exec (.doubled 2 1) (st (ops 0 0 0 0 0 0) none (some q3))) 2 =
    some [(0, 0xA5), (1, 0x0F), (2, 0xA5), (3, 0x0F)] := by decide +kernel

/-- V43-7: 65536 is beyond `MAX_DIM`; a free source wins over a valid receiver (rule R193). -/
theorem test_doubled_faults :
    causeOf (exec (.doubledx 2 0) (st (ops 0 0 0 0 0 0) (some ⟨32768, 1, .d1, []⟩) none)) = some (true, 7) ∧
    causeOf (exec (.doubledy 2 0) (st (ops 0 0 0 0 0 0) (some ⟨1, 32768, .d1, []⟩) none)) = some (true, 7) ∧
    causeOf (exec (.doubledx 0 1) (st (ops 0 0 0 0 0 0) (some q3) none)) = some (true, 2) := by decide

theorem test_replace :
    dataOf (exec (.replace 0) (st (ops 0 0 0 0 3 0x1C) (some e5) none)) 0 =
      some [(0, 0x21), (1, 0x4C), (2, 0x05), (3, 0x76), (4, 0x98), (5, 0x0A)] ∧
    dataOf (exec (.replace 0) (st (ops 0 0 0 0 0x13 7) (some e5) none)) 0 = some e5.data := by decide

/-! ## Composition (V44-1 to V44-7, from D4 and M3) -/

theorem test_drawimage :
    dataOf (exec (.drawimage 0 1) (st (ops (-1) 0 0 0 0 0) (some d4) (some m3))) 0 =
      some [(0, 0x10), (1, 0x77), (2, 0x01), (3, 0x77)] ∧
    dataOf (exec (.drawimage 0 1) (st (ops 4 0 0 0 0 0) (some d4) (some m3))) 0 = some d4.data := by decide

/-- V44-5, V44-7: narrowing without `STRICT`, the fault with it, and `Alias`. -/
theorem test_drawimage_depths :
    dataOf (exec (.drawimage 0 1) (st (ops 0 0 0 0 0 0) (some d4) (some ⟨3, 1, .d8, [(0, 0x10), (1, 0x23)]⟩))) 0 =
      some [(0, 0x30), (1, 0x70), (2, 0x77), (3, 0x77)] ∧
    causeOf (exec (.drawimage 0 1) { st (ops 0 0 0 0 0 0) (some d4) (some m3) with strict := true }) =
      some (true, 6) ∧
    causeOf (exec (.drawimage 0 0) (st (ops 0 0 0 0 0 0) (some d4) none)) = some (true, 4) := by decide

theorem test_drawtransparent :
    dataOf (exec (.drawtransparent 0 1) (st (ops (-1) 0 0 0 0 0) (some d4) (some m3))) 0 =
      some [(0, 0x17), (1, 0x77), (2, 0x71), (3, 0x77)] ∧
    dataOf (exec (.drawtransparent 0 1)
      (st (ops 0 0 0 0 0 0) (some d4) (some ⟨3, 1, .d8, [(0, 0x10), (1, 0x23)]⟩))) 0 =
      some [(0, 0x30), (1, 0x77), (2, 0x77), (3, 0x77)] := by decide

theorem test_overlaps :
    resOf (exec (.overlaps 0 1) (st (ops (-3) 0 0 0 0 0) (some d4) (some m3))) = some (0, 0) ∧
    resOf (exec (.overlaps 0 1) (st (ops (-2) 0 0 0 0 0) (some d4) (some m3))) = some (1, 0) ∧
    resOf (exec (.overlaps 0 1) (st (ops 3 1 0 0 0 0) (some d4) (some m3))) = some (1, 0) ∧
    resOf (exec (.overlaps 0 1) (st (ops 0 (-2) 0 0 0 0) (some d4) (some m3))) = some (0, 0) ∧
    resOf (exec (.overlaps 0 0) (st (ops 0 0 0 0 0 0) (some d4) none)) = some (1, 0) := by decide

theorem test_drawcore :
    dataOf (exec (.drawcore 0 1) (st (ops 2 1 0 0 0xA 0) (some d4) (some m3))) 0 =
      some [(0, 0x77), (1, 0x77), (2, 0x77), (3, 0x7A)] ∧
    dataOf (exec (.drawcore 0 1) { st (ops (-1) 0 0 0 0x3C 0) (some d4) (some m3) with strict := true }) 0 =
      some [(0, 0xC7), (1, 0x77), (2, 0x7C), (3, 0x77)] := by decide

/-! ## The step and the host's accesses (V40-6, V60-1, V60-2, P4) -/

/-- V60-1: the fault record of `getpixel b0` at (9, 1). -/
theorem test_step_fault_record :
    stateOf (step (at1 (commandWrite 0x10) (st (ops 9 1 4 4 0 0) (some ⟨4, 4, .d4, []⟩) none))) =
      some { at1 (commandWrite 0x10) halted with pc := 1 } := by decide

/-- V60-2: the halted engine discards an illegal word, and stores `C`. -/
theorem test_step_halted :
    stateOf (step (at1 (commandWrite 0xFFFFFFFF) halted)) = some { at1 (commandWrite 0xFFFFFFFF) halted with pc := 1 } ∧
    (stateOf (step (at1 (.write 32 0x30 5) halted))).map (fun s => s.regs.c) = some 5 := by decide

/-- V40-6: `wr CTRL, 0xFFFFFFFE; rd CTRL` is 0, `wr CTRL, 3` stores 1, `ID` reads 0x50504501 and ignores a write. -/
theorem test_step_registers :
    (stateOf (step (at1 (.write 32 0x04 0xFFFFFFFE) State.reset))).map State.ctrlWord = some 0 ∧
    (stateOf (step (at1 (.write 32 0x04 3) State.reset))).map State.ctrlWord = some 1 ∧
    (stateOf (step (at1 (.read 32 0x00) State.reset))).map (fun s => s.reads) = some [0x50504501] ∧
    stateOf (step (at1 (.write 32 0x00 0) State.reset)) = some { at1 (.write 32 0x00 0) State.reset with pc := 1 } := by
  decide

/-- Rule R29, U8. -/
theorem test_step_refusals :
    refusalOf (step (at1 (.read 32 0x18) State.reset)) = some (.undefinedOffset 0x18) ∧
    refusalOf (step (at1 (.write 32 0x15 0) State.reset)) = some (.misalignedAccess 0x15) ∧
    refusalOf (step (at1 (.read 8 0x20) State.reset)) = some (.accessSize 8) := by decide

/-- V60-5: reset in the halted engine. -/
theorem test_step_reset :
    stateOf (step (at1 .rst halted)) = some { at1 .rst State.reset with pc := 1 } := by decide

/-- Rule R37: idle after reset; and the host's fixed names run a word as the first command. -/
theorem test_step_first_command :
    stateOf (step State.reset) = some State.reset ∧
    (stateOf (step (State.reset.withFetchWord 32 0x20201))).map (fun s => (s.cmd, s.cause)) = some (0x20201, 7) ∧
    (stateOf (step (State.reset.withFetchWord 32 0x06))).map (fun s => (s.cmd, s.cause)) = some (0x06, 1) := by decide

/-- Rule R78: `alloc.4 b0, 8, 4` of program P1. -/
theorem test_pseudo :
    (pseudo (.alloc 0 .d4) [8, 4]).map assemble =
      some [.write 32 0x28 8, .write 32 0x2C 4, .write 32 0x14 0x00020001] ∧
    pseudo (.alloc 0 .d4) [8] = none := by decide

/-! ## Witnesses: for every statement with hypotheses, a state and operands that meet them all, clause by clause -/

/-- Every slot of the reset state is free: the hypothesis of `takesBadSlot`, for every command and slot. -/
theorem witness_takesBadSlot : ∀ r, State.reset.slot r = none := by decide

/-- The buffers of the witnesses meet rule R31. -/
theorem witness_buffers_ok : e5.ok = true ∧ d4.ok = true ∧ m3.ok = true ∧ q3.ok = true := by decide

/-! ### Encoding and the host's accesses -/

theorem witness_EveryLegalWordIsItsCommandsEncoding : decode 0x0000EF33#32 = .ok (.drawcore 15 14) := by decide

theorem witness_LegalWordsAreExactlyTheTablesRows :
    decode 0x00030F01#32 = .ok (.alloc 15 .d8) ∧ ∃ row ∈ opcodeTable, row.matches 0x00030F01#32 = true := by decide

theorem witness_StepRunsTheDecodedCommand :
    let s := at1 (commandWrite 0x20) (st (ops 0 0 0 0 0x29 0) (some e5) none)
    s.nextOp = some (.write 32 0x14 0x20) ∧ s.fault = false ∧ decode 0x20#32 = .ok (.fill 0) := by decide

theorem witness_IllegalWordsRaiseIllegalCmd :
    let s := at1 (commandWrite 0x1020) State.reset
    s.nextOp = some (.write 32 0x14 0x1020) ∧ s.fault = false ∧
      ∀ row ∈ opcodeTable, row.matches 0x1020#32 = false := by decide

theorem witness_NopOnlyStoresItsWord :
    (at1 (commandWrite 0) State.reset).nextOp = some (.write 32 0x14 0#32) ∧
    (at1 (commandWrite 0) State.reset).fault = false := by decide

theorem witness_HostWriteFollowsTheRegisterMap :
    (∀ r ∈ [RegName.id, .status, .cause, .fcmd, .ctrl, .cmd, .p 0, .p 7],
      (at1 (.write 32 (regOffset r) 0xFFFFFFFF) State.reset).nextOp = some (.write 32 (regOffset r) 0xFFFFFFFF)) ∧
    (at1 (.write 32 (regOffset .cmd) 0x20) halted).fault = true ∧
    (at1 (.write 32 (regOffset .cmd) 0x20) State.reset).fault = false ∧ decode 0x20#32 = .ok (.fill 0) := by decide

/-- The third clause of the write of `CMD`: a word that is no command. -/
theorem witness_HostWrite_illegal : ∀ i, decode 0xFFFFFFFF#32 ≠ .ok i := by
  intro i h
  have e : decode 0xFFFFFFFF#32 = .error .zeroFieldSet := by decide
  rw [e] at h
  cases h

theorem witness_HostReadFollowsTheRegisterMap :
    ∀ r ∈ [RegName.id, .status, .cause, .fcmd, .ctrl, .cmd, .p 0, .p 7],
      (at1 (.read 32 (regOffset r)) State.reset).nextOp = some (.read 32 (regOffset r)) := by decide

/-- At the map's edges: 0x00, 0x14, 0x20, 0x3C are defined, 0x18, 0x1C, 0x40 are not, nor is 0x16 or a size of 16. -/
theorem witness_ExactlyTheUndefinedAccessesAreRefused :
    (∀ q ∈ [(32, 0x18), (32, 0x1C), (32, 0x40), (32, 0x16), (16, 0x14), (64, 0x20)],
      (at1 (.read q.1 q.2) State.reset).nextOp = some (.read q.1 q.2) ∧
      (q.2 = 0x18 ∨ q.2 = 0x1C ∨ 0x40 ≤ q.2 ∨ q.2 % 4 ≠ 0 ∨ q.1 ≠ 32)) ∧
    (∀ off ∈ [0x00, 0x14, 0x20, 0x3C],
      (at1 (.write 32 off 1) State.reset).nextOp = some (.write 32 off 1) ∧
      (off ≠ 0x18 ∧ off ≠ 0x1C ∧ off < 0x40 ∧ off % 4 = 0)) := by decide

theorem witness_ResetClearsTheEngine : (at1 .rst halted).nextOp = some .rst := by decide

theorem witness_EveryOperationAdvancesTheIndexByOne :
    (step State.reset = .next State.reset ∧ State.reset.nextOp = none) ∧
    ∃ t, step (at1 .rst halted) = .next t ∧ (at1 .rst halted).nextOp ≠ none :=
  ⟨⟨rfl, rfl⟩, _, rfl, by decide⟩

theorem witness_OnlyResetLeavesTheHaltedState :
    halted.fault = true ∧ (at1 (.write 32 0x30 5) halted).nextOp ≠ some .rst ∧
    ∃ t, step (at1 (.write 32 0x30 5) halted) = .next t :=
  ⟨rfl, by decide, _, rfl⟩

theorem witness_TheHaltedEngineDiscardsCommands :
    halted.fault = true ∧
    (at1 (commandWrite 0xFFFFFFFF) halted).nextOp = some (.write 32 0x14 0xFFFFFFFF) ∧
    (at1 (.write 32 0x30 5) halted).nextOp = some (.write 32 (regOffset (.p 4)) 5) ∧
    (at1 (.write 32 0x04 1) halted).nextOp = some (.write 32 0x04 1) ∧
    (at1 (.read 32 0x0C) halted).nextOp = some (.read 32 (regOffset .cause)) := by decide

/-! ### Whole-machine rules and faults -/

theorem witness_CommandsWriteOnlyTheResultRegisters :
    (∃ t, exec (.width 0) (st (ops 0 0 0 0 0 0) (some e5) none) = .next t) ∧
    writesResult (.fill 0) = false ∧ ∃ t, exec (.fill 0) (st (ops 0 0 0 0 9 0) (some e5) none) = .next t :=
  ⟨⟨_, rfl⟩, rfl, _, rfl⟩

theorem witness_CommandsReadOnlyTheirOperandRegisters :
    ∀ k ∈ operandReads (.fill 0), (ops 1 2 3 4 0x29 6).get k = (st (ops 0 0 0 0 0x29 0) (some e5) none).regs.get k := by
  decide

theorem witness_CommandsChangeOnlyTheirDestinationSlot :
    (∃ t, exec (.drawimage 0 1) (st (ops 0 0 0 0 0 0) (some d4) (some m3)) = .next t) ∧
    destSlot (.drawimage 0 1) ≠ some 1 := ⟨⟨_, rfl⟩, by decide⟩

/-- The three clauses: a slot created, a slot released, a slot repainted. -/
theorem witness_SlotsLiveFromCreationToFree :
    (State.reset.slot 0 = none ∧ (stateOf (exec (.alloc 0 .d4) (st (ops 0 0 5 2 0 0) none none))).map
      (fun t => (t.slot 0).isSome) = some true) ∧
    ((st (ops 0 0 0 0 0 0) (some e5) none).slot 0 ≠ none ∧
      (stateOf (exec (.free 0) (st (ops 0 0 0 0 0 0) (some e5) none))).map (fun t => t.slot 0) = some none) ∧
    (stateOf (exec (.fill 0) (st (ops 0 0 0 0 9 0) (some e5) none))).map (fun t => (t.slot 0).isSome) = some true := by
  decide

/-- R193's own example: ALLOC into a valid slot with `W` = 0 has two conditions, and `SlotBusy` is the first. -/
theorem witness_TheFirstConditionInOrderIsTheFaultTaken :
    faultArises .slotBusy (.alloc 0 .d4) (st (ops 0 0 0 5 0 0) (some e5) none) ∧
    faultArises .dimRange (.alloc 0 .d4) (st (ops 0 0 0 5 0 0) (some e5) none) ∧
    ∀ c', priority c' < priority .slotBusy → ¬faultArises c' (.alloc 0 .d4) (st (ops 0 0 0 5 0 0) (some e5) none) := by
  refine ⟨⟨0, rfl, by decide⟩, .inl ⟨0, .d4, rfl, .inl (by decide)⟩, ?_⟩
  intro c' h
  cases c' <;> first | (exact absurd h (by decide)) | simp [faultArises, existingSlots]

theorem witness_WithoutAConditionNoFaultIsTaken :
    ∀ c, ¬faultArises c (.fill 0) (st (ops 0 0 0 0 9 0) (some e5) none) := by
  have h : (st (ops 0 0 0 0 9 0) (some e5) none).slot 0 ≠ none := by decide
  intro c
  cases c
  case badSlot => rintro ⟨r, hr, hn⟩; simp [existingSlots] at hr; subst hr; exact h hn
  all_goals simp [faultArises, createdSlot, createdDims]

theorem witness_FaultsArePrecise :
    (st (ops 9 1 0 0 0 0) (some e5) none).fault = false ∧
    (stateOf (exec (.getpixel 0) (st (ops 9 1 0 0 0 0) (some e5) none))).map State.fault = some true := by decide

/-! ### System commands and the ROM -/

/-- ALLOC's clauses at the edges of `W` and `H`: 0, 65536 and -1 are out, 1 and 65535 are in; and a capacity met exactly
and exceeded by one byte. -/
theorem witness_AllocCreatesAZeroFilledBuffer :
    (st (ops 0 0 1 1 0 0) (some e5) none).slot 0 ≠ none ∧ (st (ops 0 0 1 1 0 0) none none).slot 0 = none ∧
    ((st (ops 0 0 0 1 0 0) none none).opW < 1 ∧ 65535 < (st (ops 0 0 65536 1 0 0) none none).opW ∧
      (st (ops 0 0 1 (-1) 0 0) none none).opH < 1 ∧ 65535 < (st (ops 0 0 1 65536 0 0) none none).opH) ∧
    (let s := st (ops 0 0 1 65535 0 0) none none
     1 ≤ s.opW ∧ s.opW ≤ 65535 ∧ 1 ≤ s.opH ∧ s.opH ≤ 65535) := by decide

theorem witness_Alloc_capacity :
    let s := fun n => ({ st (ops 0 0 9 2 0 0) none (some e5) with pmCapacity := some n } : State)
    (s 10).slot 0 = none ∧ 1 ≤ (s 10).opW ∧ (s 10).opW ≤ 65535 ∧ 1 ≤ (s 10).opH ∧ (s 10).opH ≤ 65535 ∧
    (∀ c, (s 10).pmCapacity = some c →
      (s 10).used + (s 10).opH.toNat * (((s 10).opW.toNat * bitsOf .d1 + 7) / 8) ≤ c) ∧
    ∃ c, (s 9).pmCapacity = some c ∧ c < (s 9).used + (s 9).opH.toNat * (((s 9).opW.toNat * bitsOf .d1 + 7) / 8) :=
  ⟨by decide, by decide, by decide, by decide, by decide, fun c h => by cases h; decide, 9, by decide, by decide⟩

theorem witness_FreeReleasesTheSlot : (st (ops 0 0 0 0 0 0) (some e5) none).slot 0 = some e5 := by decide

/-- LDB's and STB's offsets: -1 and 6 are out of E5's 6 bytes, 0 and 5 are in. -/
theorem witness_LdbAnswersTheRawByte_StbStoresOneByte :
    (∀ x : Word, (st (ops x 0 0 0 0x1FF 0) (some e5) none).slot 0 = some e5) ∧ e5.ok = true ∧ e5.len = 6 ∧
    (st (ops (-1) 0 0 0 0 0) (some e5) none).opX = -1 ∧ (st (ops 0 0 0 0 0 0) (some e5) none).opX = 0 ∧
    (st (ops 5 0 0 0 0 0) (some e5) none).opX = 5 ∧ (st (ops 6 0 0 0 0 0) (some e5) none).opX = 6 :=
  ⟨fun _ => rfl, by decide, by decide, by decide, by decide, by decide, by decide⟩

/-- Lane 7 of a depth-1 byte and lane 0 of a depth-8 byte, at the last pixel of E5. -/
theorem witness_ConvertIsWhatPixWriteStores :
    7 < ppb .d1 ∧ 0 < ppb .d8 ∧ e5.ok = true ∧ 4 < e5.w ∧ 1 < e5.h := by decide

/-! ### Packed Pixel Buffer commands -/

/-- GETPIXEL's and SETPIXEL's coordinates on E5 (5 x 2): (5, 0), (0, 2), (-1, 0), (0, -1) are out, (0, 0) and (4, 1)
are in. -/
theorem witness_GetpixelAnswersThePixel_SetpixelStoresOneLane :
    (∀ x y : Word, (st (ops x y 0 0 0x1C 0) (some e5) none).slot 0 = some e5) ∧ e5.w = 5 ∧ e5.h = 2 ∧
    (∀ x ∈ [(-1 : Word), 0, 4, 5], (st (ops x 0 0 0 0 0) (some e5) none).opX = x.toInt) ∧
    (∀ y ∈ [(-1 : Word), 0, 1, 2], (st (ops 0 y 0 0 0 0) (some e5) none).opY = y.toInt) ∧
    [(-1 : Word), 0, 1, 2, 4, 5].map BitVec.toInt = [-1, 0, 1, 2, 4, 5] :=
  ⟨fun _ _ => rfl, by decide, by decide, fun _ _ => rfl, fun _ _ => rfl, by decide⟩

theorem witness_AccessorsAnswerTheDescriptor : (st (ops 0 0 0 0 0 0) (some m3) none).slot 0 = some m3 := by decide

theorem witness_CloneCopiesTheBuffer :
    let s := fun n => ({ st (ops 0 0 0 0 0 0) none (some e5) with pmCapacity := some n } : State)
    (s 12).slot 1 = some e5 ∧ (s 12).slot 1 ≠ none ∧ (s 12).slot 0 = none ∧
    (∀ c, (s 12).pmCapacity = some c → (s 12).used + e5.len ≤ c) ∧
    ∃ c, (s 11).pmCapacity = some c ∧ c < (s 11).used + e5.len :=
  ⟨by decide, by decide, by decide, fun c h => by cases h; decide, 11, by decide, by decide⟩

/-- Buffers that differ in shape (4 x 2 against 2 x 4, the same length), and two of one shape. -/
theorem witness_CopyfromOverwritesEveryByte :
    let s := fun o => st (ops 0 0 0 0 0 0) (some (Buffer.zeroed 4 2 .d8)) (some o)
    ((s (Buffer.zeroed 2 4 .d8)).slot 0 = some (Buffer.zeroed 4 2 .d8) ∧
      (s (Buffer.zeroed 2 4 .d8)).slot 1 = some (Buffer.zeroed 2 4 .d8) ∧
      ¬((Buffer.zeroed 2 4 .d8).width = (Buffer.zeroed 4 2 .d8).width ∧
        (Buffer.zeroed 2 4 .d8).height = (Buffer.zeroed 4 2 .d8).height ∧
        (Buffer.zeroed 2 4 .d8).depth = (Buffer.zeroed 4 2 .d8).depth)) ∧
    (s ⟨4, 2, .d8, [(7, 9)]⟩).slot 1 = some ⟨4, 2, .d8, [(7, 9)]⟩ := by decide

/-! ### Rectangular operators -/

/-- The hypotheses of the statements of FILL, FILLRECT (both), FLIPX, FLIPY, their double use, SCROLL, REPLACE. -/
theorem witness_rectangular : (st (ops 3 (-1) 10 2 0xF 0x1C) (some e5) none).slot 0 = some e5 ∧ e5.ok = true := by decide

theorem witness_FillEqualsFillrectOfTheWholeBuffer :
    let s := st (ops 0 0 5 2 9 0) (some e5) none
    s.slot 0 = some e5 ∧ s.opX = 0 ∧ s.opY = 0 ∧ s.opW = e5.w ∧ s.opH = e5.h := by decide

/-- The doubling commands: a valid receiver; 32768 out of range and 32767 in it, on either axis; a capacity met exactly
and exceeded by one byte. -/
theorem witness_DoublingReplicatesEachPixel :
    ((st (ops 0 0 0 0 0 0) (some e5) (some q3)).slot 1 = some q3 ∧
      (st (ops 0 0 0 0 0 0) (some e5) (some q3)).slot 0 ≠ none) ∧
    (st (ops 0 0 0 0 0 0) none (some q3)).slot 0 = none ∧
    65535 < 2 * (Buffer.zeroed 32768 1 .d1).w ∧ 2 * (Buffer.zeroed 32767 1 .d1).w ≤ 65535 ∧
    65535 < 2 * (Buffer.zeroed 1 32768 .d1).h ∧ 2 * (Buffer.zeroed 1 32767 .d1).h ≤ 65535 := by decide

theorem witness_Doubling_capacity :
    let s := fun n => ({ st (ops 0 0 0 0 0 0) none (some q3) with pmCapacity := some n } : State)
    (s 5).slot 1 = some q3 ∧ (s 5).slot 0 = none ∧ 2 * q3.w ≤ 65535 ∧ 2 * q3.h ≤ 65535 ∧
    (∀ c, (s 5).pmCapacity = some c → (s 5).used + dataLen (2 * q3.w) (2 * q3.h) q3.depth ≤ c) ∧
    ∃ c, (s 4).pmCapacity = some c ∧ c < (s 4).used + dataLen (2 * q3.w) (2 * q3.h) q3.depth :=
  ⟨by decide, by decide, by decide, by decide, fun c h => by cases h; decide, 4, by decide, by decide⟩

/-- Q3 (1 byte) in slot 1, slots 0, 2, 3 free, and room for exactly the larger pair: 2 + 4 bytes beside it. -/
theorem witness_DoubledIsDoubledxThenDoubledy :
    let s : State := { st (ops 0 0 0 0 0 0) none (some q3) with pmCapacity := some 7 }
    s.slot 1 = some q3 ∧ s.slot 0 = none ∧ s.slot 2 = none ∧ s.slot 3 = none ∧ (2 : SlotIx) ≠ 3 ∧
    2 * q3.w ≤ 65535 ∧ 2 * q3.h ≤ 65535 ∧
    ∀ c, s.pmCapacity = some c →
      s.used + dataLen (2 * q3.w) q3.h q3.depth + dataLen (2 * q3.w) (2 * q3.h) q3.depth ≤ c ∧
      s.used + dataLen q3.w (2 * q3.h) q3.depth + dataLen (2 * q3.w) (2 * q3.h) q3.depth ≤ c :=
  ⟨by decide, by decide, by decide, by decide, by decide, by decide, by decide, fun c h => by cases h; decide⟩

/-! ### Composition -/

/-- The hypotheses of the statements of DRAWIMAGE, DRAWTRANSPARENT, DRAWCORE and OVERLAPS: both slots valid and distinct;
one slot named twice; different depths with `STRICT` set and clear. -/
theorem witness_drawing :
    let s := st (ops (-1) 0 0 0 0x3C 0) (some d4) (some m3)
    (s.slot 0 = some d4 ∧ s.slot 1 = some m3 ∧ (0 : SlotIx) ≠ 1 ∧ s.strict = false ∧ d4.ok = true) ∧
    ({ s with strict := true }.slot 0 = some d4 ∧ { s with strict := true }.slot 1 = some m3 ∧
      { s with strict := true }.strict = true ∧ m3.depth ≠ d4.depth) ∧
    (s.slot 0 = some d4 ∧ (0 : SlotIx) = 0) := by decide

theorem witness_OverlapsZeroMeansDrawingDoesNothing :
    let s := st (ops (-3) 0 0 0 0 0) (some d4) (some m3)
    (s.slot 0 = some d4 ∧ s.slot 1 = some m3 ∧ d4.ok = true ∧ m3.ok = true) ∧
    exec (.overlaps 0 1) s = .next (s.withResult 0#32) ∧ (0 : SlotIx) ≠ 1 ∧ s.strict = false :=
  ⟨by decide, rfl, by decide, rfl⟩

/-! ### The invariant -/

theorem witness_EveryStepKeepsTheInvariant :
    (at1 (commandWrite 0x20) (st (ops 0 0 0 0 0x29 0) (some e5) none)).inv = true ∧ (at1 .rst halted).inv = true ∧
    ∃ t, step (at1 (commandWrite 0x20) (st (ops 0 0 0 0 0x29 0) (some e5) none)) = .next t :=
  ⟨by decide, by decide, _, rfl⟩

end Sys2Proof.Tests
end

section
/-! PROOF. The frame of one command, read off what it has done (`Effect`): the fields no command writes, the operand
registers, and the slots (`10_state.md` rules R10, R12, R30, R32, R33). -/

namespace Sys2Proof.Machine

/-- `t` has the fields of `s` that no command writes: `CTRL`, `CMD`, the capacity and the host's side. -/
structure State.FrameKept (s t : State) : Prop where
  strict : t.strict = s.strict
  cmd : t.cmd = s.cmd
  pmCapacity : t.pmCapacity = s.pmCapacity
  program : t.program = s.program
  pc : t.pc = s.pc
  reads : t.reads = s.reads

theorem Effect.frameKept {i : Instr} {s t : State} (h : Effect i s t) : s.FrameKept t := by
  cases h with
  | faulted c h => subst h; exact ⟨rfl, rfl, rfl, rfl, rfl, rfl⟩
  | created r b hr hfree hfits h => subst h; exact ⟨rfl, rfl, rfl, rfl, rfl, rfl⟩
  | changed r b b' hr hold hshape h => subst h; exact ⟨rfl, rfl, rfl, rfl, rfl, rfl⟩
  | freed r b hi hold h => subst h; exact ⟨rfl, rfl, rfl, rfl, rfl, rfl⟩
  | answered v hw h => subst h; exact ⟨rfl, rfl, rfl, rfl, rfl, rfl⟩
  | nothing hi h => subst h; exact ⟨rfl, rfl, rfl, rfl, rfl, rfl⟩

/-- A command leaves all operand registers alone, or is one of the seven of rule R12's "writes" column and writes
`RES` and `RESH`. -/
theorem Effect.regs_eq_or_result {i : Instr} {s t : State} (h : Effect i s t) :
    t.regs = s.regs ∨
      writesResult i = true ∧ ∃ lo hi, t.regs = { s.regs with res := lo, resh := hi } := by
  cases h with
  | answered v hw h => subst h; exact .inr ⟨hw, _, _, State.setRes64_regs s _⟩
  | faulted c h => subst h; exact .inl rfl
  | created r b hr hfree hfits h => subst h; exact .inl rfl
  | changed r b b' hr hold hshape h => subst h; exact .inl rfl
  | freed r b hi hold h => subst h; exact .inl rfl
  | nothing hi h => subst h; exact .inl rfl

/-- A slot a command creates is the slot it names as `RD`. -/
theorem destSlot_of_createdSlot {i : Instr} {r : SlotIx} (h : createdSlot i = some r) : destSlot i = some r := by
  cases i with
  | alloc | clone | doubledx | doubledy | doubled => exact h
  | _ => cases h

/-- What becomes of a slot under a command: it stays as it is, or it is the destination, and is then created by a
creating command, repainted in its shape, or freed by FREE. -/
inductive SlotEffect (i : Instr) (r : SlotIx) (old new : Option Buffer) : Prop where
  | kept (h : new = old)
  | created (b : Buffer) (hr : createdSlot i = some r) (hold : old = none) (hnew : new = some b)
  | changed (b b' : Buffer) (hr : destSlot i = some r) (hold : old = some b) (hnew : new = some b')
      (hshape : b.SameShape b')
  | freed (b : Buffer) (hi : i = .free r) (hold : old = some b) (hnew : new = none)

theorem Effect.slotEffect {i : Instr} {s t : State} (h : Effect i s t) (q : SlotIx) :
    SlotEffect i q (s.slot q) (t.slot q) := by
  cases h with
  | faulted c h => exact .kept (by rw [h, State.slot_takeFault])
  | answered v hw h => exact .kept (by rw [h, State.slot_setRes64])
  | nothing hi h => exact .kept (by rw [h])
  | created r b hr hfree hfits h =>
    subst h
    by_cases hq : q = r
    · subst hq; exact .created b hr hfree (by simp)
    · exact .kept (by simp [hq])
  | changed r b b' hr hold hshape h =>
    subst h
    by_cases hq : q = r
    · subst hq; exact .changed b b' hr hold (by simp) hshape
    · exact .kept (by simp [hq])
  | freed r b hi hold h =>
    subst h
    by_cases hq : q = r
    · subst hq; exact .freed b hi hold (by simp)
    · exact .kept (by simp [hq])

/-- A slot that is not the command's destination stays as it is. -/
theorem SlotEffect.eq_of_not_dest {i : Instr} {r : SlotIx} {old new : Option Buffer} (h : SlotEffect i r old new)
    (hd : destSlot i ≠ some r) : new = old := by
  cases h with
  | kept h => exact h
  | created b hr hold hnew => exact absurd (destSlot_of_createdSlot hr) hd
  | changed b b' hr hold hnew hshape => exact absurd hr hd
  | freed b hi hold hnew => subst hi; exact absurd rfl hd

theorem SlotEffect.createdSlot_of_new {i : Instr} {r : SlotIx} {new : Option Buffer} (h : SlotEffect i r none new)
    (hnew : new ≠ none) : createdSlot i = some r := by
  cases h with
  | kept h => exact absurd h hnew
  | created b hr hold hn => exact hr
  | changed b b' hr hold hn hshape => cases hold
  | freed b hi hold hn => cases hold

theorem SlotEffect.free_of_gone {i : Instr} {r : SlotIx} {old : Option Buffer} (h : SlotEffect i r old none)
    (hold : old ≠ none) : i = .free r := by
  cases h with
  | kept h => exact absurd h.symm hold
  | created b hr ho hnew => exact absurd ho hold
  | changed b b' hr ho hnew hshape => cases hnew
  | freed b hi ho hnew => exact hi

theorem SlotEffect.sameShape {i : Instr} {r : SlotIx} {b b' : Buffer} (h : SlotEffect i r (some b) (some b')) :
    b.SameShape b' := by
  cases h with
  | kept h => cases h; exact ⟨rfl, rfl, rfl⟩
  | created b hr hold hnew => cases hold
  | changed c c' hr hold hnew hshape => cases hold; cases hnew; exact hshape
  | freed b hi hold hnew => cases hnew

/-- Settles O17: the two frames of `Effect`. -/
theorem commandsWriteOnlyTheResultRegisters : Obligations.CommandsWriteOnlyTheResultRegisters := by
  unfold Obligations.CommandsWriteOnlyTheResultRegisters
  intro i s t h
  have he := exec_effect i s t h
  obtain ⟨hstrict, hcmd, hcap, hprog, hpc, hreads⟩ := he.frameKept
  refine ⟨?_, ?_, hstrict, hcmd, hcap, hprog, hpc, hreads⟩
  · rcases he.regs_eq_or_result with hregs | ⟨-, lo, hi, hregs⟩ <;> simp [hregs]
  · intro hw
    rcases he.regs_eq_or_result with hregs | ⟨hw', -⟩
    · exact hregs
    · exact absurd hw' (by simp [hw])

/-- Settles O19: the destination is the only slot `SlotEffect` lets change. -/
theorem commandsChangeOnlyTheirDestinationSlot : Obligations.CommandsChangeOnlyTheirDestinationSlot := by
  unfold Obligations.CommandsChangeOnlyTheirDestinationSlot
  intro i s t r h hd
  exact ((exec_effect i s t h).slotEffect r).eq_of_not_dest hd

/-- Settles O20: one clause for each way a slot can fare under `SlotEffect`. -/
theorem slotsLiveFromCreationToFree : Obligations.SlotsLiveFromCreationToFree := by
  unfold Obligations.SlotsLiveFromCreationToFree
  intro i s t r h
  have he := (exec_effect i s t h).slotEffect r
  refine ⟨fun hold hnew => ?_, fun hold hnew => ?_, fun b b' hold hnew => ?_⟩
  · rw [hold] at he; exact he.createdSlot_of_new hnew
  · rw [hnew] at he; exact he.free_of_gone hold
  · rw [hold, hnew] at he; exact he.sameShape

end Sys2Proof.Machine
end

section
/-! PROOF. Two runs of one command from states that differ in the operand registers (rule R12, the "reads" column): a
relation of two results, one lemma for each shared operation, then one case for each command. That every command
answers a next state comes with it. -/

namespace Sys2Proof.Machine

/-- `s` with other operand registers. -/
def State.withRegs (s : State) (regs : OpRegs) : State := { s with regs := regs }

/-- A command reads an operand only through its register (rules R11, R72). -/
theorem State.opX_withRegs {s : State} {regs : OpRegs} (h : regs.get 0 = s.regs.get 0) :
    (s.withRegs regs).opX = s.opX := congrArg BitVec.toInt h
theorem State.opY_withRegs {s : State} {regs : OpRegs} (h : regs.get 1 = s.regs.get 1) :
    (s.withRegs regs).opY = s.opY := congrArg BitVec.toInt h
theorem State.opW_withRegs {s : State} {regs : OpRegs} (h : regs.get 2 = s.regs.get 2) :
    (s.withRegs regs).opW = s.opW := congrArg BitVec.toInt h
theorem State.opH_withRegs {s : State} {regs : OpRegs} (h : regs.get 3 = s.regs.get 3) :
    (s.withRegs regs).opH = s.opH := congrArg BitVec.toInt h
theorem State.opC_withRegs {s : State} {regs : OpRegs} (h : regs.get 4 = s.regs.get 4) :
    (s.withRegs regs).opC = s.opC := congrArg BitVec.toInt h
theorem State.opC2_withRegs {s : State} {regs : OpRegs} (h : regs.get 5 = s.regs.get 5) :
    (s.withRegs regs).opC2 = s.opC2 := congrArg BitVec.toInt h

@[simp] theorem State.slot_withRegs (s : State) (regs : OpRegs) (r : SlotIx) :
    (s.withRegs regs).slot r = s.slot r := rfl

@[simp] theorem strictMismatch_withRegs (s : State) (regs : OpRegs) (dst src : Buffer) :
    strictMismatch (s.withRegs regs) dst src = strictMismatch s dst src := rfl

/-- `a` and `a'` are results of runs from `s` and from `s.withRegs regs` that did the same: both answer, the answers
differ in the operand registers alone, and either no register was written or both wrote the same `RES` and `RESH`. -/
def RunsAgree (s : State) (regs : OpRegs) (a a' : Result) : Prop :=
  ∃ t t', a = .next t ∧ a' = .next t' ∧ { t' with regs := t.regs } = t ∧
    ((t.regs = s.regs ∧ t'.regs = regs) ∨
      ∃ lo hi, t.regs = { s.regs with res := lo, resh := hi } ∧ t'.regs = { regs with res := lo, resh := hi })

namespace RunsAgree

variable {s : State} {regs : OpRegs}

/-- Runs that write no operand register. -/
theorem silent {t : State} (h : t.regs = s.regs) : RunsAgree s regs (.next t) (.next (t.withRegs regs)) :=
  ⟨t, t.withRegs regs, rfl, rfl, rfl, .inl ⟨h, rfl⟩⟩

theorem takeFault (c : Cause) :
    RunsAgree s regs (.next (s.takeFault c)) (.next ((s.withRegs regs).takeFault c)) :=
  silent (t := s.takeFault c) rfl

theorem setSlot (r : SlotIx) (o : Option Buffer) :
    RunsAgree s regs (.next (s.setSlot r o)) (.next ((s.withRegs regs).setSlot r o)) :=
  silent (t := s.setSlot r o) rfl

theorem answer (v : Nat) : RunsAgree s regs (answer v s) (answer v (s.withRegs regs)) :=
  ⟨_, _, rfl, rfl, rfl, .inr ⟨_, _, rfl, rfl⟩⟩

theorem paint (r : SlotIx) (b : Buffer) (ws : List PixelWrite) :
    RunsAgree s regs (paint r b ws s) (paint r b ws (s.withRegs regs)) := setSlot r _

theorem check {p : Bool} {c : Cause} {go go' : Result} (h : RunsAgree s regs go go') :
    RunsAgree s regs (check p c s go) (check p c (s.withRegs regs) go') := by
  cases p with
  | false => exact h
  | true => exact takeFault c

theorem install (r : SlotIx) (b : Buffer) :
    RunsAgree s regs (install r b s) (install r b (s.withRegs regs)) := check (setSlot r (some b))

theorem needBuffer {r : SlotIx} {go go' : Buffer → Result} (h : ∀ b, RunsAgree s regs (go b) (go' b)) :
    RunsAgree s regs (needBuffer r s go) (needBuffer r (s.withRegs regs) go') := by
  cases hr : s.slot r with
  | none => simpa [hr] using takeFault .badSlot
  | some b => simpa [hr] using h b

theorem needFree {r : SlotIx} {go go' : Result} (h : RunsAgree s regs go go') :
    RunsAgree s regs (needFree r s go) (needFree r (s.withRegs regs) go') := by
  cases hr : s.slot r with
  | none => simpa [hr] using h
  | some b => simpa [needFree_some _ _ _ b hr, needFree_some _ (s.withRegs regs) _ b hr] using takeFault .slotBusy

theorem needTwo {rd rs : SlotIx} {go go' : Buffer → Buffer → Result} (h : ∀ b o, RunsAgree s regs (go b o) (go' b o)) :
    RunsAgree s regs (needTwo rd rs s go) (needTwo rd rs (s.withRegs regs) go') :=
  needBuffer fun b => needBuffer fun o => h b o

theorem doubleInto (rd rs : SlotIx) (kx ky : Nat) :
    RunsAgree s regs (doubleInto rd rs kx ky s) (doubleInto rd rs kx ky (s.withRegs regs)) :=
  needBuffer fun _ => needFree (check (install rd _))

end RunsAgree

/-- Two runs of a command from states that agree on its operands agree: the operands it reads are rewritten to the
first run's, after which the two runs are the same operations. -/
theorem exec_runsAgree (i : Instr) (s : State) (regs : OpRegs) (h : ∀ k ∈ operandReads i, regs.get k = s.regs.get k) :
    RunsAgree s regs (exec i s) (exec i (s.withRegs regs)) := by
  cases i with
  | nop => exact .silent rfl
  | alloc rd dc =>
    simp only [exec, execAlloc, State.opW_withRegs (h 2 (by simp [operandReads])),
      State.opH_withRegs (h 3 (by simp [operandReads]))]
    exact .needFree (.check (.install rd _))
  | free rd => exact .needBuffer fun _ => .setSlot rd none
  | ldb rd =>
    simp only [exec, execLdb, State.opX_withRegs (h 0 (by simp [operandReads]))]
    exact .needBuffer fun _ => .check (.answer _)
  | stb rd =>
    simp only [exec, execStb, State.opX_withRegs (h 0 (by simp [operandReads])),
      State.opC_withRegs (h 4 (by simp [operandReads]))]
    exact .needBuffer fun _ => .check (.setSlot rd _)
  | xlut dc =>
    simp only [exec, execXlut, State.opC_withRegs (h 4 (by simp [operandReads]))]
    exact .answer _
  | getpixel rd =>
    simp only [exec, execGetpixel, State.opX_withRegs (h 0 (by simp [operandReads])),
      State.opY_withRegs (h 1 (by simp [operandReads]))]
    exact .needBuffer fun _ => .check (.answer _)
  | setpixel rd =>
    simp only [exec, execSetpixel, State.opX_withRegs (h 0 (by simp [operandReads])),
      State.opY_withRegs (h 1 (by simp [operandReads])), State.opC_withRegs (h 4 (by simp [operandReads]))]
    exact .needBuffer fun _ => .check (.setSlot rd _)
  | width rd => exact .needBuffer fun _ => .answer _
  | height rd => exact .needBuffer fun _ => .answer _
  | ismono rd => exact .needBuffer fun _ => .answer _
  | clone rd rs => exact .needBuffer fun _ => .needFree (.install rd _)
  | copyfrom rd rs => exact .needBuffer fun _ => .needBuffer fun _ => .check (.setSlot rd _)
  | fill rd =>
    simp only [exec, execFill, State.opC_withRegs (h 4 (by simp [operandReads]))]
    exact .needBuffer fun _ => .paint rd _ _
  | fillrect rd =>
    simp only [exec, execFillrect, State.opX_withRegs (h 0 (by simp [operandReads])),
      State.opY_withRegs (h 1 (by simp [operandReads])), State.opW_withRegs (h 2 (by simp [operandReads])),
      State.opH_withRegs (h 3 (by simp [operandReads])), State.opC_withRegs (h 4 (by simp [operandReads]))]
    exact .needBuffer fun _ => .paint rd _ _
  | flipx rd => exact .needBuffer fun _ => .paint rd _ _
  | flipy rd => exact .needBuffer fun _ => .paint rd _ _
  | scroll rd =>
    simp only [exec, execScroll, State.opX_withRegs (h 0 (by simp [operandReads])),
      State.opY_withRegs (h 1 (by simp [operandReads]))]
    exact .needBuffer fun _ => .paint rd _ _
  | doubledx rd rs => exact .doubleInto rd rs 2 1
  | doubledy rd rs => exact .doubleInto rd rs 1 2
  | doubled rd rs => exact .doubleInto rd rs 2 2
  | replace rd =>
    simp only [exec, execReplace, State.opC_withRegs (h 4 (by simp [operandReads])),
      State.opC2_withRegs (h 5 (by simp [operandReads]))]
    exact .needBuffer fun _ => .paint rd _ _
  | drawimage rd rs =>
    simp only [exec, execDrawimage, State.opX_withRegs (h 0 (by simp [operandReads])),
      State.opY_withRegs (h 1 (by simp [operandReads])), strictMismatch_withRegs]
    exact .needTwo fun _ _ => .check (.check (.paint rd _ _))
  | drawtransparent rd rs =>
    simp only [exec, execDrawtransparent, State.opX_withRegs (h 0 (by simp [operandReads])),
      State.opY_withRegs (h 1 (by simp [operandReads])), strictMismatch_withRegs]
    exact .needTwo fun _ _ => .check (.check (.paint rd _ _))
  | overlaps rd rs =>
    simp only [exec, execOverlaps, State.opX_withRegs (h 0 (by simp [operandReads])),
      State.opY_withRegs (h 1 (by simp [operandReads]))]
    exact .needTwo fun _ _ => .answer _
  | drawcore rd rs =>
    simp only [exec, execDrawcore, State.opX_withRegs (h 0 (by simp [operandReads])),
      State.opY_withRegs (h 1 (by simp [operandReads])), State.opC_withRegs (h 4 (by simp [operandReads]))]
    exact .needTwo fun _ _ => .check (.paint rd _ _)

/-- Every command answers a next state (rule R222): a run agrees with itself. -/
theorem exec_answers (i : Instr) (s : State) : ∃ t, exec i s = .next t := by
  obtain ⟨t, -, ht, -⟩ := exec_runsAgree i s s.regs fun _ _ => rfl
  exact ⟨t, ht⟩

/-- Settles O18: `RunsAgree` of the two runs. -/
theorem commandsReadOnlyTheirOperandRegisters : Obligations.CommandsReadOnlyTheirOperandRegisters := by
  unfold Obligations.CommandsReadOnlyTheirOperandRegisters
  exact exec_runsAgree

end Sys2Proof.Machine
end

section
/-! PROOF. What one step can do, said once for `step`: nothing at the end of the host's program, else one operation of
the host; and which accesses are refused (`10_state.md` rules R20, R29). -/

namespace Sys2Proof.Machine

/-- What the host's operation `op`, if it answers `t`, has done to the engine, `s` being the state with the host's
index already moved on. -/
inductive HostEffect (op : HostOp) (s t : State) : Prop where
  | ignored (h : t = s)
  | ctrl (v : Word) (h : t = s.writeCtrl v)
  | operand (i : Fin 8) (v : Word) (h : t = { s with regs := s.regs.set i v })
  | read (r : RegName) (h : t = { s with reads := s.reads ++ [hostReadValue r s] })
  | illegal (w : Word) (e : DecodeError) (hf : s.fault = false) (hd : decode w = .error e)
      (h : t = State.takeFault { s with cmd := w } .illegalCmd)
  | command (w : Word) (i : Instr) (hf : s.fault = false) (hd : decode w = .ok i)
      (h : exec i { s with cmd := w } = .next t)
  | reset (hop : op = .rst) (h : t = s.applyReset)

theorem writeCmd_effect {op : HostOp} {w : Word} {s t : State} (h : writeCmd w s = .next t) : HostEffect op s t := by
  cases hf : s.fault with
  | true =>
    rw [writeCmd_of_fault w s hf] at h
    cases h; exact .ignored rfl
  | false =>
    cases hd : decode w with
    | error e =>
      rw [writeCmd_of_error w s e hf hd] at h
      cases h; exact .illegal w e hf hd rfl
    | ok i =>
      rw [writeCmd_of_ok w s i hf hd] at h
      exact .command w i hf hd h

theorem hostWrite_effect {op : HostOp} {r : RegName} {v : Word} {s t : State} (h : hostWrite r v s = .next t) :
    HostEffect op s t := by
  cases r with
  | id | status | cause | fcmd => cases h; exact .ignored rfl
  | ctrl => cases h; exact .ctrl v rfl
  | cmd => exact writeCmd_effect h
  | p i => cases h; exact .operand i v rfl

theorem perform_effect {op : HostOp} {s t : State} (h : perform op s = .next t) : HostEffect op s.advance t := by
  cases op with
  | write bits off v =>
    obtain ⟨-, -, r, -, hr⟩ := (access_eq _ _ _ _).mp h
    exact hostWrite_effect hr
  | read bits off =>
    obtain ⟨-, -, r, -, hr⟩ := (access_eq _ _ _ _).mp h
    cases hr; exact .read r rfl
  | rst => cases h; exact .reset rfl rfl

theorem step_of_ended {s : State} (h : s.nextOp = none) : step s = .next s := by simp [step, h]

theorem step_of_nextOp {s : State} {op : HostOp} (h : s.nextOp = some op) : step s = perform op s := by
  simp [step, h]

/-- The inversion of `step`: what a step that answers a next state has done. -/
theorem step_effect {s t : State} (h : step s = .next t) :
    (s.nextOp = none ∧ t = s) ∨ ∃ op, s.nextOp = some op ∧ HostEffect op s.advance t := by
  cases hn : s.nextOp with
  | none =>
    rw [step_of_ended hn] at h
    cases h; exact .inl ⟨rfl, rfl⟩
  | some op =>
    rw [step_of_nextOp hn] at h
    exact .inr ⟨op, rfl, perform_effect h⟩

/-- No operation changes the host's program, nor the index beyond the advance already made (rule R20). -/
theorem HostEffect.program_pc {op : HostOp} {s t : State} (h : HostEffect op s t) :
    t.program = s.program ∧ t.pc = s.pc := by
  cases h with
  | command w i hf hd h =>
    have hk := (exec_effect i _ t h).frameKept
    exact ⟨hk.program, hk.pc⟩
  | ignored h => subst h; exact ⟨rfl, rfl⟩
  | ctrl v h => subst h; exact ⟨rfl, rfl⟩
  | operand i v h => subst h; exact ⟨rfl, rfl⟩
  | read r h => subst h; exact ⟨rfl, rfl⟩
  | illegal w e hf hd h => subst h; exact ⟨rfl, rfl⟩
  | reset hop h => subst h; exact ⟨rfl, rfl⟩

/-- Settles O13: the index moves before the operation is performed, and no operation touches it or the program. -/
theorem everyOperationAdvancesTheIndexByOne : Obligations.EveryOperationAdvancesTheIndexByOne := by
  unfold Obligations.EveryOperationAdvancesTheIndexByOne
  intro s t h
  rcases step_effect h with ⟨hn, rfl⟩ | ⟨op, hn, he⟩
  · exact ⟨rfl, fun hs => absurd hn hs, fun _ => rfl⟩
  · obtain ⟨hprog, hpc⟩ := he.program_pc
    exact ⟨hprog, fun _ => hpc, fun hs => absurd (hn.symm.trans hs) (Option.some_ne_none op)⟩

/-! ### The accesses that are refused -/

theorem accessWellFormed_iff (bits off : Nat) :
    accessWellFormed bits off = true ↔ bits = 32 ∧ off % 4 = 0 ∧ off < 0x40 ∧ off ≠ 0x18 ∧ off ≠ 0x1C := by
  simp [accessWellFormed, and_assoc]

/-- The map of rule R22 has a register at every multiple of 4 below 0x40 but 0x18 and 0x1C. -/
theorem regAt_of_aligned : ∀ off < 0x40, off % 4 = 0 → off ≠ 0x18 → off ≠ 0x1C → (regAt off).isSome = true := by
  decide

/-- The registers of the map lie below 0x40, none of them at 0x18 or 0x1C (rule R22). -/
theorem regOffset_defined (r : RegName) : regOffset r < 0x40 ∧ regOffset r ≠ 0x18 ∧ regOffset r ≠ 0x1C := by
  cases r with
  | p i => simp only [regOffset]; omega
  | _ => simp [regOffset]

/-- A well-formed access goes on with a register of the map. -/
theorem access_of_wellFormed {bits off : Nat} (h : accessWellFormed bits off = true) (go : RegName → Result) :
    ∃ r, access bits off go = go r := by
  obtain ⟨rfl, halign, hlt, h18, h1C⟩ := (accessWellFormed_iff bits off).mp h
  obtain ⟨r, hr⟩ := Option.isSome_iff_exists.mp (regAt_of_aligned off hlt halign h18 h1C)
  exact ⟨r, by simp [access, halign, hr]⟩

/-- Every other access is refused (rule R29). -/
theorem access_of_not_wellFormed {bits off : Nat} (h : accessWellFormed bits off = false) (go : RegName → Result) :
    ∃ why, access bits off go = .refused why := by
  by_cases hbits : bits = 32
  · by_cases halign : off % 4 = 0
    · cases hr : regAt off with
      | none => exact ⟨.undefinedOffset off, by simp [access, hbits, halign, hr]⟩
      | some r =>
        obtain ⟨hlt, h18, h1C⟩ := regOffset_of_regAt off r hr ▸ regOffset_defined r
        exact absurd ((accessWellFormed_iff bits off).mpr ⟨hbits, halign, hlt, h18, h1C⟩) (by simp [h])
    · exact ⟨.misalignedAccess off, by simp [access, hbits, halign]⟩
  · exact ⟨.accessSize bits, by simp [access, hbits]⟩

theorem writeCmd_answers (w : Word) (s : State) : ∃ t, writeCmd w s = .next t := by
  cases hf : s.fault with
  | true => exact ⟨_, writeCmd_of_fault w s hf⟩
  | false =>
    cases hd : decode w with
    | error e => exact ⟨_, writeCmd_of_error w s e hf hd⟩
    | ok i => rw [writeCmd_of_ok w s i hf hd]; exact exec_answers i _

/-- A host write of a register of the map always completes (rules R95, R222). -/
theorem hostWrite_answers (r : RegName) (v : Word) (s : State) : ∃ t, hostWrite r v s = .next t := by
  cases r with
  | cmd => exact writeCmd_answers v s
  | _ => exact ⟨_, rfl⟩

theorem perform_read_of_wellFormed {bits off : Nat} (h : accessWellFormed bits off = true) (s : State) :
    ∃ t, perform (.read bits off) s = .next t := by
  obtain ⟨r, hr⟩ := access_of_wellFormed h fun r => hostRead r s.advance
  exact ⟨_, hr⟩

theorem perform_write_of_wellFormed {bits off : Nat} (h : accessWellFormed bits off = true) (v : Word) (s : State) :
    ∃ t, perform (.write bits off v) s = .next t := by
  obtain ⟨r, hr⟩ := access_of_wellFormed h fun r => hostWrite r v s.advance
  obtain ⟨t, ht⟩ := hostWrite_answers r v s.advance
  exact ⟨t, hr.trans ht⟩

/-- Settles O10: the step is the access, which is refused exactly where it is not well formed. -/
theorem exactlyTheUndefinedAccessesAreRefused : Obligations.ExactlyTheUndefinedAccessesAreRefused := by
  unfold Obligations.ExactlyTheUndefinedAccessesAreRefused
  intro s bits off hop
  refine ⟨fun hbad => ?_, fun ⟨h18, h1C, hlt, halign, hbits⟩ => ?_⟩
  · have hwf : accessWellFormed bits off = false := by
      rw [← Bool.not_eq_true, accessWellFormed_iff]; omega
    rcases hop with hn | ⟨v, hn⟩ <;> rw [step_of_nextOp hn] <;> exact access_of_not_wellFormed hwf _
  · have hwf := (accessWellFormed_iff bits off).mpr ⟨hbits, halign, hlt, h18, h1C⟩
    rcases hop with hn | ⟨v, hn⟩ <;> rw [step_of_nextOp hn]
    · exact perform_read_of_wellFormed hwf s
    · exact perform_write_of_wellFormed hwf v s

end Sys2Proof.Machine
end

section
/-! PROOF. The invariant part by part: each part as a statement, the state after reset, and the slots, the capacity
and the fault record under every command and every step (`10_state.md` rules R20, R26 to R28, R31). -/

namespace Sys2Proof.Machine

/-! ### The parts -/

theorem State.inv_iff (s : State) :
    s.inv = true ↔ s.slotsOk = true ∧ s.capacityOk = true ∧ s.recordOk = true ∧ s.indexOk = true := by
  simp [State.inv, and_assoc]

theorem State.capacityOk_iff (s : State) : s.capacityOk = true ↔ ∀ c, s.pmCapacity = some c → s.used ≤ c := by
  unfold State.capacityOk
  cases s.pmCapacity <;> simp

theorem State.recordOk_of_no_fault {s : State} (hf : s.fault = false) :
    s.recordOk = true ↔ s.cause = 0#8 ∧ s.fcmd = 0#32 := by
  simp [State.recordOk, hf]

theorem State.recordOk_of_fault {s : State} (hf : s.fault = true) :
    s.recordOk = true ↔ (1#8 ≤ s.cause ∧ s.cause ≤ 10#8) ∧ s.fcmd = s.cmd := by
  simp [State.recordOk, hf]

theorem State.indexOk_iff (s : State) : s.indexOk = true ↔ s.pc ≤ s.program.length := by simp [State.indexOk]

/-- Taking a fault leaves a truthful record, whatever stood there (rules R181, R192). -/
theorem State.recordOk_takeFault (s : State) (c : Cause) : (s.takeFault c).recordOk = true := by
  have hcode : 1#8 ≤ c.code ∧ c.code ≤ 10#8 := by cases c <;> decide
  exact (State.recordOk_of_fault (s.takeFault_fault c)).mpr ⟨hcode, rfl⟩

/-- The host's next operation stands inside its program. -/
theorem State.pc_lt_of_nextOp {s : State} {op : HostOp} (h : s.nextOp = some op) : s.pc < s.program.length :=
  (List.getElem?_eq_some_iff.mp h).1

/-! ### Reset -/

@[simp] theorem State.slot_resetWith (capacity : Option Nat) (r : SlotIx) :
    (State.resetWith capacity).slot r = none := by
  simp [State.slot, State.resetWith]

theorem State.used_resetWith (capacity : Option Nat) : (State.resetWith capacity).used = 0 := rfl

theorem State.inv_resetWith (capacity : Option Nat) : (State.resetWith capacity).inv = true := by
  rw [State.inv_iff]
  refine ⟨?_, ?_, rfl, rfl⟩
  · rw [State.slotsOk_iff]
    intro r b hb
    simp at hb
  · rw [State.capacityOk_iff, State.used_resetWith]
    exact fun c _ => Nat.zero_le c

/-- Settles O56, by the reset state with any capacity. -/
theorem invariantHoldsAtReset : Obligations.InvariantHoldsAtReset := by
  unfold Obligations.InvariantHoldsAtReset
  exact ⟨State.inv_resetWith _, State.inv_resetWith⟩

/-- Settles O12: the table by evaluation, the idle step because the reset host has no operation. -/
theorem resetStateIsTheResetTable : Obligations.ResetStateIsTheResetTable := by
  unfold Obligations.ResetStateIsTheResetTable
  have hregs : ∀ i, State.reset.regs.get i = 0#32 := by decide
  exact ⟨hregs, rfl, rfl, rfl, rfl, rfl, State.slot_resetWith _, step_of_ended rfl⟩

/-! ### The buffers commands make -/

/-- ALLOC's dimensions are in range (rules R91, R188); 65535 is `Config.maxDim`. -/
theorem dimsOutOfRange_eq_false {w h : Int} :
    dimsOutOfRange w h = false ↔ 1 ≤ w ∧ w ≤ 65535 ∧ 1 ≤ h ∧ h ≤ 65535 := by
  have hmax : (Config.maxDim : Int) = 65535 := rfl
  simp only [dimsOutOfRange, Bool.or_eq_false_iff, decide_eq_false_iff_not, hmax]
  omega

/-- A fresh buffer of legal dimensions meets rule R31 (rule R91). -/
theorem Buffer.zeroed_ok {w h : Nat} (d : Depth) (hw : 1 ≤ w) (hw' : w < 65536) (hh : 1 ≤ h) (hh' : h < 65536) :
    (Buffer.zeroed w h d).ok = true := by
  rw [Buffer.ok_iff, Buffer.zeroed_w w h d hw', Buffer.zeroed_h w h d hh']
  exact ⟨hw, hh, Memory.wf_nil, Memory.below_nil _⟩

theorem Buffer.doubledBuffer_ok {b : Buffer} {kx ky : Nat} (hb : b.ok = true) (hkx : 1 ≤ kx) (hky : 1 ≤ ky)
    (hw : kx * b.w < 65536) (hh : ky * b.h < 65536) : (doubledBuffer b kx ky).ok = true := by
  obtain ⟨hbw, hbh, -, -⟩ := b.ok_iff.mp hb
  exact Buffer.writeAll_ok _
    (Buffer.zeroed_ok b.depth (Nat.mul_pos hkx hbw) hw (Nat.mul_pos hky hbh) hh) _

theorem Buffer.writeByte_ok {b : Buffer} (hb : b.ok = true) {off : Nat} (hoff : off < b.len) (v : Byte) :
    (b.writeByte off v).ok = true := by
  obtain ⟨hw, hh, hwf, hbelow⟩ := b.ok_iff.mp hb
  exact (Buffer.ok_iff _).mpr ⟨hw, hh, Memory.wf_write _ _ _ hwf, Memory.below_write _ _ _ _ hbelow hoff⟩

/-- A pixel write inside the buffer is a list of one write. -/
theorem Buffer.pixWrite_ok {b : Buffer} (hb : b.ok = true) {x y : Int} (hin : b.inBounds x y = true) (v : Int) :
    (b.pixWrite x.toNat y.toNat v).ok = true := by
  have hall := b.writeAll_ok hb [⟨x, y, v⟩]
  simpa [Buffer.pixWriteClipped, hin] using hall

/-- COPYFROM gives the destination the source's buffer: their shapes are equal (rule R116). -/
theorem Buffer.copy_eq_of_sameDims {b o : Buffer} (h : dimsDiffer b o = false) : { b with data := o.data } = o := by
  simp only [dimsDiffer, Bool.or_eq_false_iff, bne_eq_false_iff_eq] at h
  obtain ⟨⟨hw, hh⟩, hd⟩ := h
  rw [← hw, ← hh, ← hd]

/-! ### Every command keeps rule R31 of every slot -/

theorem State.slotsOk_setSlot {s : State} {r : SlotIx} {o : Option Buffer} (hs : s.slotsOk = true)
    (ho : ∀ b, o = some b → b.ok = true) : (s.setSlot r o).slotsOk = true := by
  rw [State.slotsOk_iff] at hs ⊢
  intro q b hq
  rw [State.slot_setSlot] at hq
  split at hq
  · exact ho b hq
  · exact hs q b hq

/-- If the result is a next state, all its slots meet rule R31. -/
def LeavesSlotsOk (a : Result) : Prop := ∀ t, a = .next t → t.slotsOk = true

namespace LeavesSlotsOk

variable {s : State} (hs : s.slotsOk = true)
include hs

theorem raise (c : Cause) : LeavesSlotsOk (raise c s) := by
  intro t h
  rw [(raise_eq c s t).mp h]
  exact hs

theorem answer (v : Nat) : LeavesSlotsOk (answer v s) := by
  intro t h
  rw [(answer_eq v s t).mp h]
  exact hs

theorem setSlot {r : SlotIx} {b : Buffer} (hb : b.ok = true) : LeavesSlotsOk (.next (s.setSlot r (some b))) := by
  intro t h
  cases h
  exact State.slotsOk_setSlot hs fun b' hb' => by cases hb'; exact hb

theorem check {p : Bool} {c : Cause} {go : Result} (hgo : p = false → LeavesSlotsOk go) :
    LeavesSlotsOk (check p c s go) := by
  cases p with
  | false => exact hgo rfl
  | true => exact raise hs c

theorem needBuffer {r : SlotIx} {go : Buffer → Result} (hgo : ∀ b, b.ok = true → LeavesSlotsOk (go b)) :
    LeavesSlotsOk (needBuffer r s go) := by
  intro t h
  rcases (needBuffer_eq _ _ _ _).mp h with ⟨-, rfl⟩ | ⟨b, hb, h⟩
  · exact hs
  · exact hgo b ((State.slotsOk_iff s).mp hs r b hb) t h

theorem needFree {r : SlotIx} {go : Result} (hgo : LeavesSlotsOk go) : LeavesSlotsOk (needFree r s go) := by
  intro t h
  rcases (needFree_eq _ _ _ _).mp h with ⟨-, rfl⟩ | ⟨-, h⟩
  · exact hs
  · exact hgo t h

theorem install {r : SlotIx} {b : Buffer} (hb : b.ok = true) : LeavesSlotsOk (install r b s) :=
  check hs fun _ => setSlot hs hb

theorem paint {r : SlotIx} {b : Buffer} (ws : List PixelWrite) (hb : b.ok = true) : LeavesSlotsOk (paint r b ws s) :=
  setSlot hs (b.writeAll_ok hb ws)

theorem needTwo {rd rs : SlotIx} {go : Buffer → Buffer → Result}
    (hgo : ∀ b o, b.ok = true → o.ok = true → LeavesSlotsOk (go b o)) : LeavesSlotsOk (needTwo rd rs s go) :=
  needBuffer hs fun b hb => needBuffer hs fun o ho => hgo b o hb ho

theorem doubleInto (rd rs : SlotIx) {kx ky : Nat} (hkx : 1 ≤ kx) (hky : 1 ≤ ky) :
    LeavesSlotsOk (doubleInto rd rs kx ky s) :=
  needBuffer hs fun b hb => needFree hs <| check hs fun hdims => by
    simp only [Bool.or_eq_false_iff, decide_eq_false_iff_not, Nat.not_lt] at hdims
    obtain ⟨hw, hh⟩ := hdims
    exact install hs (Buffer.doubledBuffer_ok hb hkx hky (Nat.lt_succ_of_le hw) (Nat.lt_succ_of_le hh))

end LeavesSlotsOk

/-- Every command keeps rule R31 of every slot: each buffer it stores is fresh, repainted, or a copy. -/
theorem exec_leavesSlotsOk (i : Instr) (s : State) (hs : s.slotsOk = true) : LeavesSlotsOk (exec i s) := by
  cases i with
  | nop => intro t h; cases h; exact hs
  | alloc rd dc =>
    refine .needFree hs (.check hs fun hdims => .install hs ?_)
    obtain ⟨hw, hw', hh, hh'⟩ := dimsOutOfRange_eq_false.mp hdims
    exact Buffer.zeroed_ok dc (by omega) (by omega) (by omega) (by omega)
  | free rd =>
    refine .needBuffer hs fun _ _ t h => ?_
    cases h
    exact State.slotsOk_setSlot hs (by simp)
  | ldb rd => exact .needBuffer hs fun _ _ => .check hs fun _ => .answer hs _
  | stb rd =>
    refine .needBuffer hs fun b hb => .check hs fun hoff => .setSlot hs (Buffer.writeByte_ok hb ?_ _)
    simp only [offsetOutOfRange, Bool.or_eq_false_iff, decide_eq_false_iff_not] at hoff
    omega
  | xlut dc => exact .answer hs _
  | getpixel rd => exact .needBuffer hs fun _ _ => .check hs fun _ => .answer hs _
  | setpixel rd =>
    exact .needBuffer hs fun _ hb => .check hs fun hin => .setSlot hs (Buffer.pixWrite_ok hb (by simpa using hin) _)
  | width rd => exact .needBuffer hs fun _ _ => .answer hs _
  | height rd => exact .needBuffer hs fun _ _ => .answer hs _
  | ismono rd => exact .needBuffer hs fun _ _ => .answer hs _
  | clone rd rs => exact .needBuffer hs fun _ hb => .needFree hs (.install hs hb)
  | copyfrom rd rs =>
    refine .needTwo hs fun b o _ ho => .check hs fun hdims => ?_
    rw [Buffer.copy_eq_of_sameDims hdims]
    exact .setSlot hs ho
  | fill rd => exact .needBuffer hs fun _ hb => .paint hs _ hb
  | fillrect rd => exact .needBuffer hs fun _ hb => .paint hs _ hb
  | flipx rd => exact .needBuffer hs fun _ hb => .paint hs _ hb
  | flipy rd => exact .needBuffer hs fun _ hb => .paint hs _ hb
  | scroll rd => exact .needBuffer hs fun _ hb => .paint hs _ hb
  | doubledx rd rs => exact .doubleInto hs rd rs (by decide) (by decide)
  | doubledy rd rs => exact .doubleInto hs rd rs (by decide) (by decide)
  | doubled rd rs => exact .doubleInto hs rd rs (by decide) (by decide)
  | replace rd => exact .needBuffer hs fun _ hb => .paint hs _ hb
  | drawimage rd rs => exact .needTwo hs fun _ _ hb _ => .check hs fun _ => .check hs fun _ => .paint hs _ hb
  | drawtransparent rd rs => exact .needTwo hs fun _ _ hb _ => .check hs fun _ => .check hs fun _ => .paint hs _ hb
  | overlaps rd rs => exact .needTwo hs fun _ _ _ _ => .answer hs _
  | drawcore rd rs => exact .needTwo hs fun _ _ hb _ => .check hs fun _ => .paint hs _ hb

/-! ### Every command keeps the capacity and the fault record -/

/-- A command that creates no buffer does not raise the bytes in use; one that does has checked that it fits. -/
theorem Effect.used_le {i : Instr} {s t : State} (h : Effect i s t) :
    t.used ≤ s.used ∨ ∀ c, s.pmCapacity = some c → t.used ≤ c := by
  cases h with
  | faulted c h => subst h; exact .inl le_rfl
  | answered v hw h => subst h; exact .inl le_rfl
  | nothing hi h => subst h; exact .inl le_rfl
  | created r b hr hfree hfits h =>
    subst h
    rw [State.used_setSlot_of_free s r b hfree]
    exact .inr ((s.fits_eq_true b.len).mp hfits)
  | changed r b b' hr hold hshape h =>
    subst h
    have hused := s.used_setSlot r (some b')
    simp only [hold, slotLen, hshape.len_eq] at hused
    exact .inl (by omega)
  | freed r b hi hold h =>
    subst h
    have hused := s.used_setSlot r none
    simp only [hold, slotLen] at hused
    exact .inl (by omega)

/-- Rule R31 (d) under a command. -/
theorem Effect.capacityOk {i : Instr} {s t : State} (h : Effect i s t) (hs : s.capacityOk = true) :
    t.capacityOk = true := by
  rw [State.capacityOk_iff] at hs ⊢
  rw [h.frameKept.pmCapacity]
  intro c hc
  rcases h.used_le with hle | hcap
  · exact hle.trans (hs c hc)
  · exact hcap c hc

/-- A command that takes no fault leaves the whole record, and `CMD`, as they were (rules R21, R194). -/
theorem Effect.recordOk {i : Instr} {s t : State} (h : Effect i s t) (hs : s.recordOk = true) :
    t.recordOk = true := by
  cases h with
  | faulted c h => subst h; exact s.recordOk_takeFault c
  | created r b hr hfree hfits h => subst h; exact hs
  | changed r b b' hr hold hshape h => subst h; exact hs
  | freed r b hi hold h => subst h; exact hs
  | answered v hw h => subst h; exact hs
  | nothing hi h => subst h; exact hs

/-! ### Every step keeps the invariant -/

/-- The invariant of the engine's own state: `State.inv` without the host's index. -/
structure State.EngineOk (s : State) : Prop where
  slots : s.slotsOk = true
  capacity : s.capacityOk = true
  record : s.recordOk = true

theorem exec_keeps_engineOk {i : Instr} {s t : State} (h : exec i s = .next t) (hs : s.EngineOk) : t.EngineOk :=
  have he := exec_effect i s t h
  ⟨exec_leavesSlotsOk i s hs.slots t h, he.capacityOk hs.capacity, he.recordOk hs.record⟩

/-- A command word may be stored while there is no fault: `FCMD` need not follow it then (rules R27, R28). -/
theorem State.EngineOk.storeCmd {s : State} (hs : s.EngineOk) (hf : s.fault = false) (w : Word) :
    State.EngineOk { s with cmd := w } := by
  refine ⟨hs.slots, hs.capacity, ?_⟩
  rw [State.recordOk_of_no_fault (s := { s with cmd := w }) hf]
  exact (State.recordOk_of_no_fault hf).mp hs.record

theorem State.EngineOk.applyReset (s : State) : s.applyReset.EngineOk := by
  obtain ⟨hslots, hcap, hrec, -⟩ := (State.inv_iff _).mp (State.inv_resetWith s.pmCapacity)
  exact ⟨hslots, hcap, hrec⟩

theorem HostEffect.keeps_engineOk {op : HostOp} {s t : State} (h : HostEffect op s t) (hs : s.EngineOk) :
    t.EngineOk := by
  cases h with
  | ignored h => subst h; exact hs
  | ctrl v h => subst h; exact ⟨hs.slots, hs.capacity, hs.record⟩
  | operand i v h => subst h; exact ⟨hs.slots, hs.capacity, hs.record⟩
  | read r h => subst h; exact ⟨hs.slots, hs.capacity, hs.record⟩
  | illegal w e hf hd h => subst h; exact ⟨hs.slots, hs.capacity, State.recordOk_takeFault _ _⟩
  | command w i hf hd h => exact exec_keeps_engineOk h (hs.storeCmd hf w)
  | reset hop h => subst h; exact .applyReset s

/-- Settles O57: the engine's part by what a step can do, the host's index because the operation performed stood in
its program. -/
theorem everyStepKeepsTheInvariant : Obligations.EveryStepKeepsTheInvariant := by
  unfold Obligations.EveryStepKeepsTheInvariant
  intro s t hs h
  rcases step_effect h with ⟨-, rfl⟩ | ⟨op, hn, he⟩
  · exact hs
  obtain ⟨hslots, hcap, hrec, -⟩ := s.inv_iff.mp hs
  have hok : t.EngineOk := he.keeps_engineOk ⟨hslots, hcap, hrec⟩
  obtain ⟨hprog, hpc⟩ := he.program_pc
  have hindex : t.pc ≤ t.program.length := by
    rw [hprog, hpc]
    exact State.pc_lt_of_nextOp hn
  exact t.inv_iff.mpr ⟨hok.slots, hok.capacity, hok.record, t.indexOk_iff.mpr hindex⟩

end Sys2Proof.Machine
end

section
/-! PROOF. A pixel as a field of bits: the byte and the lane of a coordinate are the quotient and the remainder of its
bit position `x*d` by 8, because the lanes fill the byte exactly (`20_memory.md` rules R41, R42, R44, R47). -/

namespace Sys2Proof.Machine

/-- The byte of a pixel within its row, by its bit position (rule R42). -/
theorem div_ppb_eq (d : Depth) (x : Nat) : x / ppb d = x * bitsOf d / 8 := by
  rw [← ppb_mul_bitsOf d, Nat.mul_div_mul_right _ _ (bitsOf_pos d)]

/-- The lane of a pixel starts at its bit position within the byte (rules R42, R44). -/
theorem laneShift_mod_ppb (d : Depth) (x : Nat) : laneShift (x % ppb d) d = x * bitsOf d % 8 := by
  rw [laneShift_lsbFirst, ← Nat.mul_mod_mul_right, ppb_mul_bitsOf]

/-- Shifting and masking a byte is dividing and reducing its value (rules R45, R47). -/
theorem laneRead_toNat (d : Depth) (k : Nat) (b : Byte) :
    (laneRead d k b).toNat = b.toNat / 2 ^ laneShift k d % 2 ^ bitsOf d := by
  rw [laneRead, BitVec.toNat_and, maskOf_toNat, Nat.and_two_pow_sub_one_eq_mod, BitVec.toNat_ushiftRight,
    Nat.shiftRight_eq_div_pow]

theorem Buffer.byteOff_eq_bitPosition (b : Buffer) (x y : Nat) :
    b.byteOff x y = y * ((b.w * bitsOf b.depth + 7) / 8) + x * bitsOf b.depth / 8 := by
  rw [Buffer.byteOff, div_ppb_eq, Buffer.rowBytes, Sys2Proof.Machine.rowBytes]

/-- Settles O25: the lane's value by division and remainder, at the byte and the shift of the pixel's bit position. -/
theorem pixelsAreBitFieldsLeastSignificantFirst : Obligations.PixelsAreBitFieldsLeastSignificantFirst := by
  unfold Obligations.PixelsAreBitFieldsLeastSignificantFirst
  intro b x y
  rw [Buffer.pixRead, laneRead_toNat, laneShift_mod_ppb, Buffer.byteOff_eq_bitPosition]

end Sys2Proof.Machine
end

section
/-! PROOF. The opcode map read as a table (`30_encoding.md` rules R70 to R75): a word is legal exactly when its opcode
is in the map and nothing is set outside the fields that opcode uses. The decoder, the encoder, the rule of
`Fields.wellFormed` and the rows of `opcodeTable` are each tied to that one reading, `Fields.clear`, and with it to each
other. -/

namespace Sys2Proof

/-- The operand fields a form uses: the columns RD, RS and DC of its row (rule R73). -/
def Form.uses : Form → Uses
  | .bare _ => ⟨false, false, false⟩
  | .one _ => ⟨true, false, false⟩
  | .two _ => ⟨true, true, false⟩
  | .make _ => ⟨true, false, true⟩
  | .table _ => ⟨false, false, true⟩

/-- The command a form makes of the fields it uses, whatever the others hold. -/
def Form.command (form : Form) (f : Fields) : Instr :=
  match form with
  | .bare i => i
  | .one c => c (slotOf f.rd)
  | .two c => c (slotOf f.rd) (slotOf f.rs)
  | .make c => c (slotOf f.rd) (Depth.ofCode f.dc)
  | .table c => c (Depth.ofCode f.dc)

/-- The fields with 0 in the zero field and in every operand field not used. -/
def Fields.clear (u : Uses) (f : Fields) : Fields where
  op := f.op
  rd := if u.rd then f.rd else 0#4
  rs := if u.rs then f.rs else 0#4
  dc := if u.dc then f.dc else 0#2
  zero := 0#14

theorem Fields.clear_eq_self_iff (u : Uses) (f : Fields) :
    f.clear u = f ↔
      f.zero = 0#14 ∧ (u.rd = true ∨ f.rd = 0#4) ∧ (u.rs = true ∨ f.rs = 0#4) ∧ (u.dc = true ∨ f.dc = 0#2) := by
  obtain ⟨op, rd, rs, dc, zero⟩ := f
  obtain ⟨urd, urs, udc⟩ := u
  have hite : ∀ {n : Nat} (p : Bool) (x : BitVec n), (if p then x else 0#n) = x ↔ p = true ∨ x = 0#n := by
    intro n p x
    cases p with
    | true => simp
    | false => simpa using eq_comm
  simp only [Fields.clear, Fields.mk.injEq, hite, true_and, eq_comm (a := 0#14)]
  tauto

/-! ### The decoder and the rule of R74 -/

/-- One check of the decoder: it goes on exactly when the field tested is 0. -/
theorem error_if_set_eq_ok_iff {n : Nat} (x : BitVec n) (e : DecodeError) (r : Except DecodeError Instr) (i : Instr) :
    (if x ≠ 0#n then .error e else r) = .ok i ↔ x = 0#n ∧ r = .ok i := by
  by_cases hx : x = 0#n <;> simp [hx]

/-- A form goes on to its command exactly when every field it does not use is 0. -/
theorem Form.build_eq_ok_iff (form : Form) (f : Fields) (i : Instr) :
    f.zero = 0#14 ∧ form.build f = .ok i ↔ f.clear form.uses = f ∧ form.command f = i := by
  rw [Fields.clear_eq_self_iff]
  cases form <;>
    simp only [Form.build, Form.uses, Form.command, error_if_set_eq_ok_iff, Except.ok.injEq, Bool.false_eq_true,
      true_or, false_or, true_and, and_assoc]

theorem decodeFields_eq_ok_iff (f : Fields) (i : Instr) :
    decodeFields f = .ok i ↔
      ∃ form, opcodeForms.lookup f.op = some form ∧ f.clear form.uses = f ∧ form.command f = i := by
  rw [decodeFields, error_if_set_eq_ok_iff]
  cases hl : opcodeForms.lookup f.op with
  | none => simp
  | some form => simp [Form.build_eq_ok_iff]

/-- `opUses` and the decoder's map are two copies of the same columns of rule R73, over all 256 opcodes. -/
theorem opUses_eq_lookup : ∀ op : BitVec 8, opUses op = (opcodeForms.lookup op).map Form.uses := by decide

theorem Fields.wellFormed_iff (f : Fields) :
    f.wellFormed = true ↔ ∃ form, opcodeForms.lookup f.op = some form ∧ f.clear form.uses = f := by
  rw [Fields.wellFormed, opUses_eq_lookup]
  cases opcodeForms.lookup f.op with
  | none => simp
  | some form => simp [Fields.clear_eq_self_iff, and_assoc]

theorem decodeFields_ok_iff_wellFormed (f : Fields) : (∃ i, decodeFields f = .ok i) ↔ f.wellFormed = true := by
  simp only [decodeFields_eq_ok_iff, Fields.wellFormed_iff]
  exact ⟨fun ⟨_, form, hl, hc, _⟩ => ⟨form, hl, hc⟩, fun ⟨form, hl, hc⟩ => ⟨_, form, hl, hc, rfl⟩⟩

/-! ### The encoder -/

/-- The opcodes of the map are distinct, so an entry is what its opcode looks up. -/
theorem lookup_opcodeForms : ∀ p ∈ opcodeForms, opcodeForms.lookup p.1 = some p.2 := by
  simp only [opcodeForms, List.forall_mem_cons]
  simp [List.lookup]

theorem lookup_opcodeForms_iff (op : BitVec 8) (form : Form) :
    opcodeForms.lookup op = some form ↔ (op, form) ∈ opcodeForms := by
  refine ⟨fun h => ?_, fun h => lookup_opcodeForms _ h⟩
  obtain ⟨before, after, hsplit, -⟩ := List.lookup_eq_some_iff.mp h
  simp [hsplit]

/-- The map and the encoder agree row by row: the command an entry makes of fields with its opcode has those fields. -/
theorem fields_command : ∀ p ∈ opcodeForms, ∀ f, f.op = p.1 → (p.2.command f).fields = f.clear p.2.uses := by
  simp +contextual [opcodeForms, Form.command, Form.uses, Instr.fields, Fields.clear]

/-- Settles O2: the decoder's map, at the fields of each constructor. -/
theorem decodeReadsBackEveryEncodedCommand : Obligations.DecodeReadsBackEveryEncodedCommand := by
  unfold Obligations.DecodeReadsBackEveryEncodedCommand
  intro i
  rw [decode_encode]
  cases i with
  | alloc rd dc | xlut dc => cases dc <;> rfl
  | _ => rfl

/-- Settles O3: the fields of the command decoded are the fields it was decoded from, none of them cleared. -/
theorem everyLegalWordIsItsCommandsEncoding : Obligations.EveryLegalWordIsItsCommandsEncoding := by
  unfold Obligations.EveryLegalWordIsItsCommandsEncoding
  intro w i h
  obtain ⟨form, hl, hclear, rfl⟩ := (decodeFields_eq_ok_iff _ _).mp h
  have hmem := (lookup_opcodeForms_iff _ _).mp hl
  rw [encode, fields_command _ hmem _ rfl, hclear, fieldsWord_wordFields]

/-- Both directions of the round trip in one: decoding is having the command's fields. -/
theorem decode_eq_ok_iff (w : Word) (i : Instr) : decode w = .ok i ↔ wordFields w = i.fields := by
  constructor
  · intro h
    rw [← everyLegalWordIsItsCommandsEncoding w i h, encode, wordFields_fieldsWord]
  · intro h
    rw [decode, h, ← decode_encode, decodeReadsBackEveryEncodedCommand]

/-! ### The rows of the opcode table -/

/-- The row rule R73 prints for an opcode: the opcode as its pattern, and a mask that leaves out the fields used. -/
def Form.row (op : BitVec 8) (form : Form) : OpcodeRow where
  mnemonic := (form.command ⟨op, 0#4, 0#4, 0#2, 0#14⟩).mnemonic
  pattern := fieldsWord ⟨op, 0#4, 0#4, 0#2, 0#14⟩
  mask := fieldsWord
    ⟨BitVec.allOnes 8, if form.uses.rd then 0#4 else BitVec.allOnes 4, if form.uses.rs then 0#4 else BitVec.allOnes 4,
      if form.uses.dc then 0#2 else BitVec.allOnes 2, BitVec.allOnes 14⟩

/-- The printed table is the decoder's map, row by row. -/
theorem opcodeTable_eq : opcodeTable = opcodeForms.map fun p => p.2.row p.1 := by decide

theorem Form.row_matches_iff (form : Form) (op : BitVec 8) (w : Word) :
    (form.row op).matches w = true ↔ (wordFields w).op = op ∧ (wordFields w).clear form.uses = wordFields w := by
  have hmask : ∀ {n : Nat} (p : Bool) (x : BitVec n),
      (x &&& if p then 0#n else BitVec.allOnes n) = 0#n ↔ p = true ∨ x = 0#n := by
    intro n p x
    cases p <;> simp
  rw [Form.row, OpcodeRow.matches_iff, Fields.clear_eq_self_iff]
  simp only [hmask, BitVec.and_allOnes]
  tauto

/-- A word matches a row exactly when the row is that of its opcode and nothing is set outside the fields used. -/
theorem matches_opcodeTable_iff (w : Word) (row : OpcodeRow) :
    (row ∈ opcodeTable ∧ row.matches w = true) ↔
      ∃ form, opcodeForms.lookup (wordFields w).op = some form ∧ (wordFields w).clear form.uses = wordFields w ∧
        row = form.row (wordFields w).op := by
  rw [opcodeTable_eq]
  constructor
  · rintro ⟨hrow, hm⟩
    obtain ⟨⟨op, form⟩, hmem, rfl⟩ := List.mem_map.mp hrow
    obtain ⟨rfl, hclear⟩ := (Form.row_matches_iff form op w).mp hm
    exact ⟨form, lookup_opcodeForms _ hmem, hclear, rfl⟩
  · rintro ⟨form, hl, hclear, rfl⟩
    exact ⟨List.mem_map.mpr ⟨_, (lookup_opcodeForms_iff _ _).mp hl, rfl⟩, (Form.row_matches_iff _ _ w).mpr ⟨rfl, hclear⟩⟩

theorem decode_ok_iff_matches (w : Word) :
    (∃ i, decode w = .ok i) ↔ ∃ row ∈ opcodeTable, row.matches w = true := by
  simp only [matches_opcodeTable_iff, decode, decodeFields_ok_iff_wellFormed, Fields.wellFormed_iff]
  exact ⟨fun ⟨form, hl, hc⟩ => ⟨_, form, hl, hc, rfl⟩, fun ⟨_, form, hl, hc, _⟩ => ⟨form, hl, hc⟩⟩

/-- The mnemonic is the opcode's: the operands do not show in it. -/
theorem mnemonic_command : ∀ p ∈ opcodeForms, ∀ f g, (p.2.command f).mnemonic = (p.2.command g).mnemonic := by
  simp [opcodeForms, Form.command, Instr.mnemonic]

/-- Settles O4: a row that matches is the one row of the word's opcode. -/
theorem legalWordsAreExactlyTheTablesRows : Obligations.LegalWordsAreExactlyTheTablesRows := by
  unfold Obligations.LegalWordsAreExactlyTheTablesRows
  intro w
  refine ⟨decode_ok_iff_matches w, decodeFields_ok_iff_wellFormed _, ?_, ?_⟩
  · intro row hrow row' hrow' hm hm'
    obtain ⟨form, hl, -, rfl⟩ := (matches_opcodeTable_iff w row).mp ⟨hrow, hm⟩
    obtain ⟨form', hl', -, rfl⟩ := (matches_opcodeTable_iff w row').mp ⟨hrow', hm'⟩
    cases hl.symm.trans hl'
    rfl
  · intro i hd row hrow hm
    obtain ⟨form, hl, -, rfl⟩ := (matches_opcodeTable_iff w row).mp ⟨hrow, hm⟩
    obtain ⟨form', hl', -, rfl⟩ := (decodeFields_eq_ok_iff _ i).mp hd
    cases hl.symm.trans hl'
    exact mnemonic_command _ ((lookup_opcodeForms_iff _ _).mp hl) _ _

end Sys2Proof
end

section
/-! PROOF. The fields of a command word as numbers (`30_encoding.md` rule R71), and the words the spec writes out. -/

namespace Sys2Proof

open Machine

theorem wordFields_eq_iff_fieldsAre (w : Word) {f : Fields} (hz : f.zero = 0#14) :
    wordFields w = f ↔ fieldsAre w f.op.toNat f.rd.toNat f.rs.toNat f.dc.toNat := by
  have hw : w.toNat / 2 ^ 18 % 2 ^ 14 = w.toNat / 2 ^ 18 := Nat.mod_eq_of_lt (by omega)
  obtain ⟨op, rd, rs, dc, zero⟩ := f
  subst hz
  simp only [wordFields, fieldsAre, Fields.mk.injEq, ← BitVec.toNat_inj, BitVec.extractLsb'_toNat,
    Nat.shiftRight_eq_div_pow, hw, BitVec.toNat_ofNat, pow_zero, Nat.div_one, Nat.zero_mod]

/-- A depth is `1 << DC` bits per pixel (rule R71). -/
theorem bitsOf_eq_two_pow_iff (d : Depth) (n : Nat) : bitsOf d = 2 ^ n ↔ d.code.toNat = n := by
  have hcode : bitsOf d = 2 ^ d.code.toNat := by cases d <;> rfl
  rw [hcode, Nat.pow_right_inj (le_refl 2)]

/-- Settles O58: the word has the command's fields, read as numbers. -/
theorem decodedOperandsAreTheFieldsOfTheWord : Obligations.DecodedOperandsAreTheFieldsOfTheWord := by
  unfold Obligations.DecodedOperandsAreTheFieldsOfTheWord
  intro w i
  rw [decode_eq_ok_iff]
  cases i with
  | alloc rd dc | xlut dc =>
    simp only [bitsOf_eq_two_pow_iff, exists_eq_left']
    exact wordFields_eq_iff_fieldsAre w rfl
  | _ => exact wordFields_eq_iff_fieldsAre w rfl

/-- Settles O1: each of the eight words is its command's encoding. -/
theorem writtenOutWordsDecode : Obligations.WrittenOutWordsDecode := by
  unfold Obligations.WrittenOutWordsDecode
  simp only [decode_eq_ok_iff]
  decide

end Sys2Proof
end

section
/-! PROOF. A listing's operand writes, and the step at which the host issues a command word (`30_encoding.md` rules R75
to R80). -/

namespace Sys2Proof.Machine

/-- A pseudo-instruction with as many operands as its command reads: a write of each, then the command word. -/
theorem assemble_pseudo {i : Instr} {args : List Int} (h : args.length = (operandReads i).length) :
    (pseudo i args).map assemble =
      some (((operandReads i).zip args).map (fun q => operandWrite (regOffset (.p q.1)) q.2) ++
        [commandWrite (encode i)]) := by
  simp [pseudo, h, assemble, AsmLine.op, operandWrite, Function.comp_def]

/-- Settles O5: each clause is `assemble_pseudo` at its command's operands. -/
theorem pseudoInstructionsExpandToOperandWrites : Obligations.PseudoInstructionsExpandToOperandWrites := by
  unfold Obligations.PseudoInstructionsExpandToOperandWrites
  intro rd rs dc a b c d e
  refine ⟨?_, ?_, ?_, ?_, ?_, ?_, ?_, ?_, ?_, ?_, ?_, ?_, ?_, ?_⟩ <;> exact assemble_pseudo rfl

/-- Issuing a command word is `writeCmd` with the host's index already moved on (rules R20, R80). -/
theorem step_of_commandWrite {s : State} {w : Word} (h : s.nextOp = some (commandWrite w)) :
    step s = writeCmd w s.advance := by
  rw [step_of_nextOp h]
  exact access_regOffset .cmd fun r => hostWrite r w s.advance

/-- Settles O6. -/
theorem stepRunsTheDecodedCommand : Obligations.StepRunsTheDecodedCommand := by
  unfold Obligations.StepRunsTheDecodedCommand
  intro s w i hop hf hd
  rw [step_of_commandWrite hop, writeCmd_of_ok w s.advance i hf hd]
  rfl

/-- Settles O7: a word that matches no row does not decode, and the fault taken is `IllegalCmd`. -/
theorem illegalWordsRaiseIllegalCmd : Obligations.IllegalWordsRaiseIllegalCmd := by
  unfold Obligations.IllegalWordsRaiseIllegalCmd
  intro s w hop hf hrows
  cases hd : decode w with
  | ok i =>
    obtain ⟨row, hrow, hm⟩ := (decode_ok_iff_matches w).mp ⟨i, hd⟩
    simp [hrows row hrow] at hm
  | error e =>
    rw [step_of_commandWrite hop, writeCmd_of_error w s.advance e hf hd]
    rfl

end Sys2Proof.Machine
end

section
/-! PROOF. The system commands NOP, ALLOC, FREE, LDB, STB (`40_system.md` rules R90 to R94): the checks and the result
they share, what a byte write changes, then one statement for each command. -/

namespace Sys2Proof.Machine

/-! ### A byte of a buffer, and the offset that names it -/

/-- A byte reads as the byte stored at its own offset, and as before at every other (rule R8). -/
theorem Buffer.readByte_writeByte {b : Buffer} (hb : b.data.wf = true) (a off : Nat) (v : Byte) :
    (b.writeByte a v).readByte off = if off = a then v else b.readByte off :=
  Memory.read_write b.data a off v hb

theorem Buffer.writeByte_sameShape (b : Buffer) (off : Nat) (v : Byte) : b.SameShape (b.writeByte off v) :=
  ⟨rfl, rfl, rfl⟩

/-- The low byte of a register read as a signed integer is the register's bits [7:0] (rule R72). -/
theorem lowByte_toInt (v : Word) : lowByte v.toInt = v.extractLsb' 0 8 := by
  rw [lowByte, ← BitVec.signExtend, BitVec.signExtend_eq_setWidth_of_le v (by decide),
    BitVec.setWidth_eq_extractLsb' (by decide)]

theorem offsetOutOfRange_eq_true {b : Buffer} {off : Int} :
    offsetOutOfRange b off = true ↔ off < 0 ∨ (b.len : Int) ≤ off := by
  simp [offsetOutOfRange]

theorem offsetOutOfRange_eq_false {b : Buffer} {off : Int} :
    offsetOutOfRange b off = false ↔ 0 ≤ off ∧ off < b.len := by
  simp [offsetOutOfRange]

/-! ### The end of a command: a result, a new buffer -/

/-- A result below 2^32 stands in `RES`, with 0 in `RESH` (rule R13). -/
theorem answer_of_lt (s : State) {v : Nat} (hv : v < 2 ^ 32) :
    answer v s = .next (s.withResult (BitVec.ofNat 32 v)) := by
  rw [answer, setRes64_of_lt s v hv, State.withResult]

/-- A byte as a result is zero-extended (rules R13, R93). -/
theorem answer_byte (s : State) (v : Byte) : answer v.toNat s = .next (s.withResult (v.zeroExtend 32)) := by
  have hv : v.toNat < 2 ^ 32 := v.isLt.trans (by decide)
  rw [answer_of_lt s hv, BitVec.ofNat_toNat]

theorem install_of_not_fits (r : SlotIx) (b : Buffer) (s : State) (h : s.fits b.len = false) :
    install r b s = .next (s.takeFault .allocFail) := by simp [install, h]

/-! ### The commands -/

/-- Writing `CMD` with NOP's word, 0, while there is no fault (rules R80, R90). -/
theorem step_of_nopWrite {s : State} (h : s.nextOp = some (commandWrite 0#32)) (hf : s.fault = false) :
    step s = .next { s.advance with cmd := 0#32 } := by
  have hnop : decode 0#32 = .ok .nop := by decide
  rw [step_of_commandWrite h, writeCmd_of_ok _ s.advance .nop hf hnop]
  rfl

/-- Settles O26: NOP's arm is the identity, and 0 is NOP's word. -/
theorem nopOnlyStoresItsWord : Obligations.NopOnlyStoresItsWord := by
  unfold Obligations.NopOnlyStoresItsWord
  exact ⟨fun _ => rfl, fun _ => step_of_nopWrite⟩

/-- ALLOC in a valid slot (rule R91). -/
theorem exec_alloc_of_valid {s : State} {rd : SlotIx} (dc : Depth) (h : s.slot rd ≠ none) :
    exec (.alloc rd dc) s = .next (s.takeFault .slotBusy) := by
  obtain ⟨b, hb⟩ := Option.ne_none_iff_exists'.mp h
  exact needFree_some rd s _ b hb

/-- ALLOC in a free slot goes on to the check of the dimensions (rule R91). -/
theorem exec_alloc_of_free {s : State} {rd : SlotIx} (dc : Depth) (h : s.slot rd = none) :
    exec (.alloc rd dc) s = check (dimsOutOfRange s.opW s.opH) .dimRange s
      (install rd (Buffer.zeroed s.opW.toNat s.opH.toNat dc) s) :=
  needFree_none rd s _ h

/-- Settles O27: the three checks in order; the capacity is compared with the new buffer's length, `dataLen`. -/
theorem allocCreatesAZeroFilledBuffer : Obligations.AllocCreatesAZeroFilledBuffer := by
  unfold Obligations.AllocCreatesAZeroFilledBuffer
  intro s rd dc
  have hlen (hw : s.opW ≤ 65535) (hh : s.opH ≤ 65535) : (Buffer.zeroed s.opW.toNat s.opH.toNat dc).len =
      s.opH.toNat * ((s.opW.toNat * bitsOf dc + 7) / 8) :=
    Buffer.zeroed_len _ _ dc (by omega) (by omega)
  refine ⟨exec_alloc_of_valid dc, fun hfree hout => ?_, fun hfree hw hw' hh hh' hcap => ?_,
    fun hfree hw hw' hh hh' hcap => ?_⟩
  · have hdims : dimsOutOfRange s.opW s.opH = true := by
      rw [← Bool.not_eq_false, dimsOutOfRange_eq_false]; omega
    rw [exec_alloc_of_free dc hfree, check_pos _ _ _ hdims]
  · have hdims := dimsOutOfRange_eq_false.mpr ⟨hw, hw', hh, hh'⟩
    rw [← hlen hw' hh'] at hcap
    rw [exec_alloc_of_free dc hfree, check_neg _ _ _ hdims, install_of_fits _ _ _ ((s.fits_eq_true _).mpr hcap)]
    refine ⟨_, rfl, ?_, ?_, rfl, Buffer.zeroed_readByte _ _ dc⟩
    · rw [Buffer.zeroed_w _ _ _ (by omega)]; omega
    · rw [Buffer.zeroed_h _ _ _ (by omega)]; omega
  · have hdims := dimsOutOfRange_eq_false.mpr ⟨hw, hw', hh, hh'⟩
    rw [← hlen hw' hh'] at hcap
    rw [exec_alloc_of_free dc hfree, check_neg _ _ _ hdims, install_of_not_fits _ _ _ ((s.fits_eq_false _).mpr hcap)]

/-- A buffer released lowers the bytes in use by its length (rules R91, R92). -/
theorem State.used_setSlot_none {s : State} {r : SlotIx} {b : Buffer} (h : s.slot r = some b) :
    (s.setSlot r none).used + b.len = s.used := by
  have hused := s.used_setSlot r none
  simpa [h, slotLen] using hused

/-- Settles O28. -/
theorem freeReleasesTheSlot : Obligations.FreeReleasesTheSlot := by
  unfold Obligations.FreeReleasesTheSlot
  intro s rd
  exact ⟨needBuffer_none rd s _, fun b hb => ⟨needBuffer_some rd s _ b hb, State.used_setSlot_none hb⟩⟩

/-- LDB of a valid slot goes on to the check of the offset (rule R93). -/
theorem exec_ldb_of_valid {s : State} {rd : SlotIx} {b : Buffer} (hb : s.slot rd = some b) :
    exec (.ldb rd) s = check (offsetOutOfRange b s.opX) .offsetRange s (answer (b.readByte s.opX.toNat).toNat s) :=
  needBuffer_some rd s _ b hb

/-- Settles O29. -/
theorem ldbAnswersTheRawByte : Obligations.LdbAnswersTheRawByte := by
  unfold Obligations.LdbAnswersTheRawByte
  intro s rd
  refine ⟨needBuffer_none rd s _, fun b hb => ?_⟩
  rw [exec_ldb_of_valid hb]
  refine ⟨fun hout => ?_, fun h0 hlt => ?_⟩
  · exact check_pos _ _ _ (offsetOutOfRange_eq_true.mpr hout)
  · rw [check_neg _ _ _ (offsetOutOfRange_eq_false.mpr ⟨h0, hlt⟩), answer_byte]

/-- STB of a valid slot goes on to the check of the offset; what it stores is `C[7:0]` (rule R94). -/
theorem exec_stb_of_valid {s : State} {rd : SlotIx} {b : Buffer} (hb : s.slot rd = some b) :
    exec (.stb rd) s = check (offsetOutOfRange b s.opX) .offsetRange s
      (.next (s.setSlot rd (some (b.writeByte s.opX.toNat (s.regs.c.extractLsb' 0 8))))) := by
  rw [← lowByte_toInt]
  exact needBuffer_some rd s _ b hb

/-- Settles O30: the buffer stored is `writeByte` at offset `X`, which R31's canonical form makes a change of that byte
alone. -/
theorem stbStoresOneByte : Obligations.StbStoresOneByte := by
  unfold Obligations.StbStoresOneByte
  intro s rd
  refine ⟨needBuffer_none rd s _, fun b hb hok => ?_⟩
  obtain ⟨-, -, hwf, -⟩ := b.ok_iff.mp hok
  rw [exec_stb_of_valid hb]
  refine ⟨fun hout => ?_, fun h0 hlt => ?_⟩
  · exact check_pos _ _ _ (offsetOutOfRange_eq_true.mpr hout)
  · refine ⟨_, check_neg _ _ _ (offsetOutOfRange_eq_false.mpr ⟨h0, hlt⟩), b.writeByte_sameShape _ _, fun off => ?_⟩
    have hoff : off = s.opX.toNat ↔ (off : Int) = s.opX := by omega
    simp only [Buffer.readByte_writeByte hwf, hoff]

end Sys2Proof.Machine
end

section
/-! PROOF. The host's writes and reads of the registers of the map (`40_system.md` rules R95, R96): a 32-bit access at a
register's offset reaches that register, after the host's index has moved on. -/

namespace Sys2Proof.Machine

theorem step_of_regWrite {s : State} {r : RegName} {v : Word} (h : s.nextOp = some (.write 32 (regOffset r) v)) :
    step s = hostWrite r v s.advance := by
  rw [step_of_nextOp h, perform, access_regOffset]

/-- No register of the map holds the host's index. -/
theorem hostReadValue_advance (r : RegName) (s : State) : hostReadValue r s.advance = hostReadValue r s := by
  cases r <;> rfl

theorem step_of_regRead {s : State} {r : RegName} (h : s.nextOp = some (.read 32 (regOffset r))) :
    step s = .next { s.advance with reads := s.reads ++ [hostReadValue r s] } := by
  rw [step_of_nextOp h, perform, access_regOffset, hostRead, hostReadValue_advance, State.advance_reads]

/-- A word that decodes to no command has a reason why it does not. -/
theorem decode_eq_error {w : Word} (h : ∀ i, decode w ≠ .ok i) : ∃ e, decode w = .error e := by
  cases hd : decode w with
  | error e => exact ⟨e, rfl⟩
  | ok i => exact absurd hd (h i)

/-- Settles O8: the three fates of a write of `CMD` are `writeCmd`'s. -/
theorem hostWriteFollowsTheRegisterMap : Obligations.HostWriteFollowsTheRegisterMap := by
  unfold Obligations.HostWriteFollowsTheRegisterMap
  intro s r v h
  rw [step_of_regWrite h]
  cases r with
  | id | status | cause | fcmd | ctrl => exact rfl
  | cmd =>
    refine ⟨fun hf => writeCmd_of_fault v s.advance hf, fun hf i hd => writeCmd_of_ok v s.advance i hf hd,
      fun hf hbad => ?_⟩
    obtain ⟨e, he⟩ := decode_eq_error hbad
    exact writeCmd_of_error v s.advance e hf he
  | p i =>
    refine ⟨s.regs.set i v, rfl, ?_, fun j hj => ?_⟩
    · rw [OpRegs.get_set, if_pos rfl]
    · rw [OpRegs.get_set, if_neg hj]

/-! ### The register images with reserved bits -/

/-- A bit zero-extended to a word stands in bit 0, with every other bit 0. -/
theorem zeroExtend_ofBool_bits (p : Bool) :
    ((BitVec.ofBool p).zeroExtend 32).getLsbD 0 = p ∧ ∀ k, 0 < k → ((BitVec.ofBool p).zeroExtend 32).getLsbD k = false :=
  ⟨by simp, fun k hk => by simp [hk.ne']⟩

theorem State.ctrlWord_eq (s : State) : s.ctrlWord = (BitVec.ofBool s.strict).zeroExtend 32 := by
  rw [State.ctrlWord]
  cases s.strict <;> rfl

theorem State.statusWord_eq (s : State) : s.statusWord = (BitVec.ofBool s.fault).zeroExtend 32 := by
  rw [State.statusWord]
  cases s.fault <;> rfl

theorem State.causeWord_toNat (s : State) : s.causeWord.toNat = s.cause.toNat := by
  rw [State.causeWord]
  exact BitVec.toNat_setWidth_of_le (by decide)

/-- Settles O9: the value is `hostReadValue`, the images of `CTRL`, `STATUS` and `CAUSE` bit by bit. -/
theorem hostReadFollowsTheRegisterMap : Obligations.HostReadFollowsTheRegisterMap := by
  unfold Obligations.HostReadFollowsTheRegisterMap
  intro s r h
  refine ⟨hostReadValue r s, step_of_regRead h, ?_⟩
  cases r with
  | id | fcmd | cmd | p => exact rfl
  | cause => exact s.causeWord_toNat
  | ctrl =>
    rw [hostReadValue, s.ctrlWord_eq]
    exact zeroExtend_ofBool_bits s.strict
  | status =>
    rw [hostReadValue, s.statusWord_eq]
    exact zeroExtend_ofBool_bits s.fault

end Sys2Proof.Machine
end

section
/-! PROOF. The Packed Pixel Buffer commands GETPIXEL, SETPIXEL, WIDTH, HEIGHT, ISMONO, CLONE, COPYFROM
(`41_pixel_buffer.md` rules R110 to R116): one pixel write as a repainting, the check of the coordinates and the forms
of a result they share, then one statement for each rule. -/

namespace Sys2Proof.Machine

/-! ### One pixel of a buffer -/

/-- `PixRead` is a byte at most, so it fits a result register (rules R13, R47). -/
theorem Buffer.pixRead_lt_word (b : Buffer) (x y : Nat) : b.pixRead x y < 2 ^ 32 :=
  (BitVec.isLt _).trans (by decide)

/-- `PixWrite` inside the buffer is the clipped list of that one write (rules R48, R49). -/
theorem Buffer.writeAll_singleton {b : Buffer} {x y : Int} (hin : b.inBounds x y = true) (v : Int) :
    b.writeAll [⟨x, y, v⟩] = b.pixWrite x.toNat y.toNat v := by
  rw [Buffer.writeAll_cons, Buffer.writeAll_nil, Buffer.pixWriteClipped, if_pos hin]

/-- `PixWrite` inside the buffer repaints its pixel and nothing else (rules R46, R48, R111). -/
theorem Buffer.pixWrite_repaints {b : Buffer} (hb : b.data.wf = true) {x y : Int} (hin : b.inBounds x y = true)
    (v : Int) : b.Repaints (b.pixWrite x.toNat y.toNat v)
      fun x' y' => if (x' : Int) = x ∧ (y' : Int) = y then some v else none := by
  rw [← Buffer.writeAll_singleton hin]
  refine b.writeAll_repaints hb _ _ fun x' y' _ _ => ?_
  simp only [lastWrite, eq_comm]

/-! ### The check of the coordinates -/

/-- `CoordRange` outside the buffer (rule R189). -/
theorem check_coord_of_outside {s : State} {b : Buffer} (go : Result)
    (h : s.opX < 0 ∨ (b.w : Int) ≤ s.opX ∨ s.opY < 0 ∨ (b.h : Int) ≤ s.opY) :
    check (!b.inBounds s.opX s.opY) .coordRange s go = .next (s.takeFault .coordRange) := by
  refine check_pos _ _ _ ?_
  rw [Bool.not_eq_true', ← Bool.not_eq_true, b.inBounds_iff]
  omega

/-- Inside the buffer the command goes on (rule R189). -/
theorem check_coord_of_inside {s : State} {b : Buffer} (go : Result) (h : b.inBounds s.opX s.opY = true) :
    check (!b.inBounds s.opX s.opY) .coordRange s go = go :=
  check_neg _ _ _ (by rw [h, Bool.not_true])

/-! ### The forms of a result -/

/-- A field of at most 32 bits as a result is zero-extended (rule R13). -/
theorem answer_toNat {n : Nat} (hn : n ≤ 32) (s : State) (v : BitVec n) :
    answer v.toNat s = .next (s.withResult (v.zeroExtend 32)) := by
  have hv : v.toNat < 2 ^ 32 := v.isLt.trans_le (Nat.pow_le_pow_right (by decide) hn)
  rw [answer_of_lt s hv, BitVec.ofNat_toNat]

/-- A Boolean as a result is 1 or 0 (rule R13). -/
theorem answer_boolResult (s : State) (p : Bool) :
    answer (boolResult p) s = .next (s.withResult (if p = true then 1#32 else 0#32)) := by
  cases p with
  | false => exact answer_of_lt s (by decide)
  | true => exact answer_of_lt s (by decide)

/-! ### The commands -/

/-- SETPIXEL of a valid slot goes on to the check of the coordinates (rule R111). -/
theorem exec_setpixel_of_valid {s : State} {rd : SlotIx} {b : Buffer} (hb : s.slot rd = some b) :
    exec (.setpixel rd) s = check (!b.inBounds s.opX s.opY) .coordRange s
      (.next (s.setSlot rd (some (b.pixWrite s.opX.toNat s.opY.toNat s.opC)))) :=
  needBuffer_some rd s _ b hb

/-- Settles O36: the buffer stored is one `PixWrite` inside the buffer, a repainting of that pixel alone. -/
theorem setpixelStoresOneLane : Obligations.SetpixelStoresOneLane := by
  unfold Obligations.SetpixelStoresOneLane
  intro s rd
  refine ⟨needBuffer_none rd s _, fun b hb hok => ?_⟩
  obtain ⟨-, -, hwf, -⟩ := b.ok_iff.mp hok
  rw [exec_setpixel_of_valid hb]
  refine ⟨check_coord_of_outside _, fun hx hx' hy hy' => ?_⟩
  have hin := (b.inBounds_iff _ _).mpr ⟨hx, hx', hy, hy'⟩
  exact ⟨_, check_coord_of_inside _ hin, Buffer.pixWrite_repaints hwf hin s.opC⟩

/-- GETPIXEL of a valid slot goes on to the check of the coordinates (rule R110). -/
theorem exec_getpixel_of_valid {s : State} {rd : SlotIx} {b : Buffer} (hb : s.slot rd = some b) :
    exec (.getpixel rd) s = check (!b.inBounds s.opX s.opY) .coordRange s
      (answer (b.pixRead s.opX.toNat s.opY.toNat) s) :=
  needBuffer_some rd s _ b hb

/-- Settles O35. -/
theorem getpixelAnswersThePixel : Obligations.GetpixelAnswersThePixel := by
  unfold Obligations.GetpixelAnswersThePixel
  intro s rd
  refine ⟨needBuffer_none rd s _, fun b hb => ?_⟩
  rw [exec_getpixel_of_valid hb]
  refine ⟨check_coord_of_outside _, fun hx hx' hy hy' => ⟨?_, b.pixRead_lt _ _⟩⟩
  have hin := (b.inBounds_iff _ _).mpr ⟨hx, hx', hy, hy'⟩
  rw [check_coord_of_inside _ hin, answer_of_lt s (b.pixRead_lt_word _ _)]

theorem exec_width_of_valid {s : State} {rd : SlotIx} {b : Buffer} (hb : s.slot rd = some b) :
    exec (.width rd) s = answer b.width.toNat s :=
  needBuffer_some rd s _ b hb

theorem exec_height_of_valid {s : State} {rd : SlotIx} {b : Buffer} (hb : s.slot rd = some b) :
    exec (.height rd) s = answer b.height.toNat s :=
  needBuffer_some rd s _ b hb

theorem exec_ismono_of_valid {s : State} {rd : SlotIx} {b : Buffer} (hb : s.slot rd = some b) :
    exec (.ismono rd) s = answer (boolResult (b.depth == .d1)) s :=
  needBuffer_some rd s _ b hb

/-- Settles O37: the width and the height are 16-bit fields, zero-extended; the comparison of the depth is a Boolean. -/
theorem accessorsAnswerTheDescriptor : Obligations.AccessorsAnswerTheDescriptor := by
  unfold Obligations.AccessorsAnswerTheDescriptor
  intro s rd
  refine ⟨⟨needBuffer_none rd s _, needBuffer_none rd s _, needBuffer_none rd s _⟩, fun b hb => ⟨?_, ?_, ?_⟩⟩
  · rw [exec_width_of_valid hb, answer_toNat (by decide)]
  · rw [exec_height_of_valid hb, answer_toNat (by decide)]
  · rw [exec_ismono_of_valid hb, answer_boolResult]
    simp only [beq_iff_eq]

/-- CLONE of a valid slot goes on to the check of the slot that is to receive the copy (rule R115). -/
theorem exec_clone_of_valid {s : State} {rd rs : SlotIx} {b : Buffer} (hb : s.slot rs = some b) :
    exec (.clone rd rs) s = needFree rd s (install rd b s) :=
  needBuffer_some rs s _ b hb

/-- Settles O38: the checks in order `BadSlot`, `SlotBusy`, `AllocFail`; what is installed is the source's buffer. -/
theorem cloneCopiesTheBuffer : Obligations.CloneCopiesTheBuffer := by
  unfold Obligations.CloneCopiesTheBuffer
  intro s rd rs
  refine ⟨needBuffer_none rs s _, fun b hb => ?_⟩
  rw [exec_clone_of_valid hb]
  refine ⟨fun hbusy => ?_, fun hfree hcap => ?_, fun hfree hcap => ?_⟩
  · obtain ⟨o, ho⟩ := Option.ne_none_iff_exists'.mp hbusy
    exact needFree_some rd s _ o ho
  · rw [needFree_none rd s _ hfree, install_of_not_fits _ _ _ ((s.fits_eq_false _).mpr hcap)]
  · rw [needFree_none rd s _ hfree, install_of_fits _ _ _ ((s.fits_eq_true _).mpr hcap)]

/-- COPYFROM's condition of `DimMismatch`, by the descriptor fields (rules R116, R186). -/
theorem dimsDiffer_eq_false {b o : Buffer} :
    dimsDiffer b o = false ↔ o.width = b.width ∧ o.height = b.height ∧ o.depth = b.depth := by
  simp only [dimsDiffer, Bool.or_eq_false_iff, bne_eq_false_iff_eq, and_assoc]

/-- COPYFROM is the two checks of `BadSlot`, `RD`'s first, then the check of the shapes (rule R116). -/
theorem exec_copyfrom (rd rs : SlotIx) (s : State) :
    exec (.copyfrom rd rs) s = needTwo rd rs s fun b o =>
      check (dimsDiffer b o) .dimMismatch s (.next (s.setSlot rd (some { b with data := o.data }))) := rfl

/-- Settles O39: between buffers of one shape the copy leaves `RD` with `RS`'s own buffer. -/
theorem copyfromOverwritesEveryByte : Obligations.CopyfromOverwritesEveryByte := by
  unfold Obligations.CopyfromOverwritesEveryByte
  intro s rd rs
  refine ⟨⟨needTwo_none_left rd rs s _, needTwo_none_right rd rs s _⟩, fun b o hb ho => ?_⟩
  rw [exec_copyfrom, needTwo_some rd rs s _ b o hb ho]
  refine ⟨fun hdiff => ?_, fun hw hh hd => ?_⟩
  · refine check_pos _ _ _ ?_
    rwa [← Bool.not_eq_false, dimsDiffer_eq_false]
  · have hsame := dimsDiffer_eq_false.mpr ⟨hw, hh, hd⟩
    rw [check_neg _ _ _ hsame, Buffer.copy_eq_of_sameDims hsame]
    exact ⟨o, rfl, ⟨hw, hh, hd⟩, fun _ _ => rfl⟩

end Sys2Proof.Machine
end

section
/-! PROOF. The expansion ROM and XLUT (`42_expansion_rom.md` rules R130 to R136): entry `k` of a table row is lane `k`
of its byte, and the rest follows: a row as a number holds its entries as bytes, repacking puts every entry back into
its lane, and converting masks an entry as `PixWrite` masks its value. -/

namespace Sys2Proof.Machine

/-! ### A row of the ROM -/

/-- Entry `k` of the row is lane `k` of the byte (rule R131). -/
theorem romEntry_getElem? {d : Depth} {k : Nat} (hk : k < ppb d) (b : Byte) :
    (romEntry d b)[k]? = some (laneRead d k b) := by
  simp [romEntry, romByte, hk]

/-- The row ends with the last lane (rule R130). -/
theorem romEntry_getElem?_beyond {d : Depth} {k : Nat} (hk : ppb d ≤ k) (b : Byte) : (romEntry d b)[k]? = none := by
  simp [romEntry, hk]

/-- Settles O32: both sides are the lane `x mod ppb` of the pixel's byte. -/
theorem romEntriesAreThePixelsOfTheByte : Obligations.RomEntriesAreThePixelsOfTheByte := by
  unfold Obligations.RomEntriesAreThePixelsOfTheByte
  intro b x y
  rw [romEntry_getElem? (Nat.mod_lt x (ppb_pos b.depth)), Option.map_some, Buffer.pixRead]

/-! ### Repacking -/

/-- A lane of two bytes joined is the two lanes joined (rule R47). -/
theorem laneRead_or (d : Depth) (k : Nat) (a b : Byte) :
    laneRead d k (a ||| b) = laneRead d k a ||| laneRead d k b := by
  simp only [laneRead, BitVec.ushiftRight_or_distrib, BitVec.and_or_distrib_right]

/-- A lane's value lies within the mask already (rule R45). -/
theorem laneRead_and_maskOf (d : Depth) (k : Nat) (b : Byte) : laneRead d k b &&& maskOf d = laneRead d k b := by
  rw [laneRead, BitVec.and_assoc, BitVec.and_self]

/-- A byte taken as a number and back (rule R7). -/
theorem ofInt_toNat (v : Byte) : BitVec.ofInt 8 (v.toNat : Int) = v := by
  rw [BitVec.ofInt_natCast, BitVec.ofNat_toNat, BitVec.setWidth_eq]

/-- One term of `Repack` is the zero byte with that lane written (rules R48, R135). -/
theorem laneWrite_zero (d : Depth) (k : Nat) (v : Byte) :
    laneWrite d k v.toNat 0#8 = (v &&& maskOf d) <<< laneShift k d := by
  rw [laneWrite, BitVec.zero_and, BitVec.zero_or, ofInt_toNat]

/-- One term of `Repack`, lane by lane (rule R135). -/
theorem laneRead_repackTerm {d : Depth} {k : Nat} (hk : k < ppb d) (j : Nat) (v : Byte) :
    laneRead d k ((v &&& maskOf d) <<< laneShift j d) = if k = j then v &&& maskOf d else 0#8 := by
  rw [← laneWrite_zero]
  by_cases h : k = j
  · subst h
    rw [if_pos rfl, laneRead_laneWrite_self d k hk, ofInt_toNat]
  · rw [if_neg h, laneRead_laneWrite_other d k j hk h, laneRead_zero]

/-- Packed from lane `j` on, lane `k` holds the value `k - j` of the list, and 0 where there is none (rule R135). -/
theorem laneRead_repackFrom {d : Depth} {k : Nat} (hk : k < ppb d) (vs : List Byte) (j : Nat) :
    laneRead d k (repackFrom d j vs) = if j ≤ k then vs.getD (k - j) 0#8 &&& maskOf d else 0#8 := by
  induction vs generalizing j with
  | nil => simp [repackFrom, laneRead_zero]
  | cons v rest ih =>
    rw [repackFrom, laneRead_or, laneRead_repackTerm hk, ih]
    rcases Nat.lt_trichotomy k j with h | h | h
    · simp [h.ne, Nat.not_le.mpr h, Nat.not_le.mpr (h.trans (Nat.lt_succ_self j))]
    · simp [h]
    · have hsub : k - j = (k - (j + 1)) + 1 := by omega
      simp [h.ne', h.le, Nat.succ_le_of_lt h, hsub]

/-- Settles O33: in every lane of the byte, `Repack` puts back what `Expand` took out of it. -/
theorem repackInvertsExpand : Obligations.RepackInvertsExpand := by
  unfold Obligations.RepackInvertsExpand
  intro d b
  refine byte_ext_of_lanes d _ _ fun k hk => ?_
  rw [repack, laneRead_repackFrom hk, if_pos (Nat.zero_le k), Nat.sub_zero, List.getD_eq_getElem?_getD,
    romEntry_getElem? hk, Option.getD_some, laneRead_and_maskOf]

/-! ### Converting -/

/-- Settles O34: the pixel written reads back truncated to the buffer's depth, which on a byte is the mask. -/
theorem convertIsWhatPixWriteStores : Obligations.ConvertIsWhatPixWriteStores := by
  unfold Obligations.ConvertIsWhatPixWriteStores
  intro src v k b x y hk hok hx _
  obtain ⟨-, -, hwf, -⟩ := b.ok_iff.mp hok
  have hlane : x < b.lanesPerRow := hx.trans_le b.w_le_lanesPerRow
  rw [b.pixRead_pixWrite hwf x y x y _ hlane hlane, if_pos ⟨rfl, rfl⟩, ← ofInt_and_maskOf_toNat, ofInt_toNat,
    convertLanes, List.getElem?_map, romEntry_getElem? hk, Option.map_some, Option.map_some]

/-! ### The row as a number, and XLUT -/

/-- Byte `k` of the number of a sequence is the sequence's entry `k`, and 0 past its end (rule R131). -/
theorem bytesToNat_byte (vs : List Byte) (k : Nat) : bytesToNat vs / 256 ^ k % 256 = (vs.getD k 0#8).toNat := by
  induction vs generalizing k with
  | nil => simp [bytesToNat]
  | cons v rest ih =>
    have hv : v.toNat < 256 := v.isLt
    cases k with
    | zero =>
      rw [bytesToNat, List.getD_cons_zero]
      omega
    | succ k =>
      have hrest : (v.toNat + 256 * bytesToNat rest) / 256 = bytesToNat rest := by omega
      rw [bytesToNat, List.getD_cons_succ, ← ih, Nat.pow_succ', ← Nat.div_div_eq_div_mul, hrest]

/-- Byte `k` of a number kept in 64 bits (rules R8, R13). -/
theorem ofNat64_byte (n : Nat) {k : Nat} (hk : k < 8) :
    ((BitVec.ofNat 64 n).extractLsb' (8 * k) 8).toNat = n / 256 ^ k % 256 := by
  have hbase : 256 = 2 ^ 8 := rfl
  have hsplit : 2 ^ 64 = 2 ^ (8 * k) * 2 ^ (64 - 8 * k) := by
    rw [← Nat.pow_add, Nat.add_sub_cancel' (by omega)]
  have hbyte : 2 ^ 8 ∣ 2 ^ (64 - 8 * k) := Nat.pow_dvd_pow 2 (by omega)
  rw [hbase, ← Nat.pow_mul, BitVec.extractLsb'_toNat, BitVec.toNat_ofNat, Nat.shiftRight_eq_div_pow, hsplit,
    Nat.mod_mul_right_div_self, Nat.mod_mod_of_dvd _ hbyte]

/-- Byte `k` of a ROM row in the 64-bit result register, and 0 past the last lane (rules R131, R134). -/
theorem romNumber_byte (d : Depth) (b : Byte) {k : Nat} (hk : k < 8) :
    ((BitVec.ofNat 64 (romNumber d b)).extractLsb' (8 * k) 8).toNat =
      if k < ppb d then (laneRead d k b).toNat else 0 := by
  rw [ofNat64_byte _ hk, romNumber, bytesToNat_byte, List.getD_eq_getElem?_getD]
  split
  · next hlane => rw [romEntry_getElem? hlane, Option.getD_some]
  · next hlane => rw [romEntry_getElem?_beyond (Nat.not_lt.mp hlane), Option.getD_none, BitVec.toNat_zero]

/-- The low byte of `C` is `C mod 256` (rules R72, R134). -/
theorem lowByte_opC_toNat (s : State) : (lowByte s.opC).toNat = s.regs.c.toNat % 256 := by
  rw [State.opC, lowByte_toInt, BitVec.extractLsb'_toNat, Nat.shiftRight_zero]

/-- Settles O31: the result register holds the row of `C`'s low byte, whose byte `k` is that byte's lane `k`. -/
theorem xlutAnswersTheLanes : Obligations.XlutAnswersTheLanes := by
  unfold Obligations.XlutAnswersTheLanes
  intro s dc
  refine ⟨_, _, rfl, fun k hk => ?_⟩
  rw [BitVec.extractLsb'_append_extractLsb' (w := 32), romNumber_byte _ _ hk, laneRead_toNat, laneShift_lsbFirst,
    lowByte_opC_toNat, ppb]

end Sys2Proof.Machine
end

section
/-! PROOF. The rectangular operators that paint one buffer: FILL, FILLRECT, FLIPX, FLIPY, SCROLL, REPLACE
(`43_rectangular.md` rules R141 to R145, R149, R150). What they share is said first: the writes over a rectangle, the
shape of such a command, and when two paintings end in the same buffer. -/

namespace Sys2Proof.Machine

/-! ### The last write of a list over a rectangle -/

/-- One value written over a rectangle of `w` by `h` at `(dx, dy)`: that value inside, nothing outside. -/
theorem lastWrite_rectangle (w h : Nat) (dx dy c x y : Int) :
    lastWrite ((grid w h).map fun q => ⟨dx + q.1, dy + q.2, c⟩) x y =
      if dx ≤ x ∧ x < dx + w ∧ dy ≤ y ∧ y < dy + h then some c else none := by
  rw [← List.filter_true (grid w h)]
  split
  · next hin =>
    exact lastWrite_moved_some w h _ dx dy (fun _ => c) (x - dx).toNat (y - dy).toNat (by omega) (by omega) rfl x y
      (by omega) (by omega)
  · next hout => exact lastWrite_moved_none w h _ dx dy (fun _ => c) x y fun i j _ _ _ => by omega

/-- Writes at the pixels of a buffer that meet a condition, one each: at a pixel the value asked for, if it meets it. -/
theorem lastWrite_filter_grid {w h : Nat} (p : Nat × Nat → Bool) (v : Nat × Nat → Int) {x y : Nat} (hx : x < w)
    (hy : y < h) :
    lastWrite (((grid w h).filter p).map fun q => ⟨q.1, q.2, v q⟩) x y =
      if p (x, y) = true then some (v (x, y)) else none := by
  split
  · next hp => simpa using lastWrite_moved_some w h p 0 0 v x y hx hy hp x y
  · next hp =>
    have hno : ∀ i j : Nat, i < w → j < h → p (i, j) = true → ¬((x : Int) = 0 + i ∧ (y : Int) = 0 + j) := by
      rintro i j - - hij ⟨hxi, hyj⟩
      obtain ⟨rfl, rfl⟩ : x = i ∧ y = j := by omega
      exact hp hij
    simpa using lastWrite_moved_none w h p 0 0 v x y hno

/-- FILLRECT's closed form writes, at the pixels of the buffer, the rectangle of rule R150. -/
theorem lastWrite_fillrectWrites {b : Buffer} {x y : Nat} (hx : x < b.w) (hy : y < b.h) (X Y W H c : Int) :
    lastWrite (fillrectWrites b X Y W H c) x y =
      if X ≤ x ∧ (x : Int) < X + W ∧ Y ≤ y ∧ (y : Int) < Y + H then some c else none := by
  simp only [fillrectWrites, clipRect, lastWrite_rectangle]
  congr 1
  rw [eq_iff_iff]
  omega

/-- The loop of rule R142 writes that rectangle; a negative width or height is an empty one. -/
theorem lastWrite_fillrectGolden (X Y W H c x y : Int) :
    lastWrite (fillrectGolden X Y W H c) x y =
      if X ≤ x ∧ x < X + W ∧ Y ≤ y ∧ y < Y + H then some c else none := by
  simp only [fillrectGolden, lastWrite_rectangle]
  congr 1
  rw [eq_iff_iff]
  omega

/-! ### Repaintings -/

/-- A command that needs the buffer of `rd` and paints it takes `BadSlot` of a free slot, and else repaints the buffer
as its list of writes says (rules R66, R140, R183). -/
theorem paintCommand_repaints {i : Instr} {s : State} {rd : SlotIx} {ws : Buffer → List PixelWrite}
    {f : Buffer → Nat → Nat → Option Int} (hexec : exec i s = needBuffer rd s fun b => paint rd b (ws b) s)
    (hf : ∀ (b : Buffer) (x y : Nat), x < b.w → y < b.h → lastWrite (ws b) x y = f b x y) :
    takesBadSlot i rd s ∧ ∀ b, s.slot rd = some b → b.ok = true →
      ∃ b', exec i s = .next (s.setSlot rd (some b')) ∧ b.Repaints b' (f b) := by
  refine ⟨fun hfree => hexec.trans (needBuffer_none rd s _ hfree), fun b hb hok => ?_⟩
  obtain ⟨-, -, hwf, -⟩ := b.ok_iff.mp hok
  exact ⟨b.writeAll (ws b), hexec.trans (needBuffer_some rd s _ b hb), b.writeAll_repaints hwf _ _ (hf b)⟩

/-- Two buffers that meet rule R31 are equal if they have one shape and equal lanes. -/
theorem Buffer.eq_of_lanes {b b' : Buffer} (hb : b.ok = true) (hb' : b'.ok = true) (hs : b.SameShape b')
    (h : ∀ x y, x < b.lanesPerRow → y < b.h → b'.pixRead x y = b.pixRead x y) : b' = b := by
  obtain ⟨-, -, hwf, hbelow⟩ := b.ok_iff.mp hb
  obtain ⟨-, -, hwf', hbelow'⟩ := b'.ok_iff.mp hb'
  rw [hs.len_eq] at hbelow'
  exact b.ext_of_lanes b' hs hwf hwf' hbelow hbelow' h

/-- Two lists with the same last write at every pixel of a buffer leave it the same, byte for byte. -/
theorem Buffer.writeAll_congr {b : Buffer} (hb : b.ok = true) {ws ws' : List PixelWrite}
    (h : ∀ x y : Nat, x < b.w → y < b.h → lastWrite ws x y = lastWrite ws' x y) : b.writeAll ws = b.writeAll ws' := by
  obtain ⟨-, -, hwf, -⟩ := b.ok_iff.mp hb
  have hs := b.writeAll_sameShape ws
  have hs' := b.writeAll_sameShape ws'
  refine Buffer.eq_of_lanes (b.writeAll_ok hb ws') (b.writeAll_ok hb ws)
    ⟨hs.width.trans hs'.width.symm, hs.height.trans hs'.height.symm, hs.depth.trans hs'.depth.symm⟩ fun x y hx _ => ?_
  rw [hs'.lanesPerRow_eq] at hx
  rw [b.pixRead_writeAll hwf ws x y hx, b.pixRead_writeAll hwf ws' x y hx]
  by_cases hin : x < b.w ∧ y < b.h
  · rw [h x y hin.1 hin.2]
  · rw [if_neg hin, if_neg hin]

/-- A pixel value of a buffer is kept whole by the buffer's depth (rule R45). -/
theorem Buffer.truncate_pixRead (b : Buffer) (x y : Nat) : truncate b.depth (b.pixRead x y) = b.pixRead x y :=
  truncate_of_lt _ _ (b.pixRead_lt x y)

/-- Moving the pixels by `p` on the columns and `r` on the rows, and again, restores the buffer, if `p` and `r` undo
themselves. -/
theorem Buffer.Repaints.involution {b b' b'' : Buffer} {p r : Nat → Nat} (hb : b.ok = true) (hb'' : b''.ok = true)
    (hp : ∀ x < b.w, p x < b.w ∧ p (p x) = x) (hr : ∀ y < b.h, r y < b.h ∧ r (r y) = y)
    (h : b.Repaints b' fun x y => some (b.pixRead (p x) (r y)))
    (h' : b'.Repaints b'' fun x y => some (b'.pixRead (p x) (r y))) : b'' = b := by
  have hw := h.shape.w_eq
  have hh := h.shape.h_eq
  refine Buffer.eq_of_lanes hb hb'' ⟨h'.shape.width.trans h.shape.width, h'.shape.height.trans h.shape.height,
    h'.shape.depth.trans h.shape.depth⟩ fun x y hx hy => ?_
  by_cases hxw : x < b.w
  · obtain ⟨hpx, hppx⟩ := hp x hxw
    obtain ⟨hry, hrry⟩ := hr y hy
    calc b''.pixRead x y
        = b'.pixRead (p x) (r y) := by
          rw [h'.painted x y _ (hw ▸ hxw) (hh ▸ hy) rfl, b'.truncate_pixRead]
      _ = b.pixRead (p (p x)) (r (r y)) := by rw [h.painted _ _ _ hpx hry rfl, b.truncate_pixRead]
      _ = b.pixRead x y := by rw [hppx, hrry]
  · have hpad : b.w ≤ x := Nat.not_lt.mp hxw
    calc b''.pixRead x y
        = b'.pixRead x y := h'.padding x y (hw ▸ hpad) (h.shape.lanesPerRow_eq ▸ hx) (hh ▸ hy)
      _ = b.pixRead x y := h.padding x y hpad hx hy

/-! ### FILL and FILLRECT -/

/-- Settles O40: every pixel of the buffer has one write, of `C`. -/
theorem fillPaintsEveryPixel : Obligations.FillPaintsEveryPixel := by
  unfold Obligations.FillPaintsEveryPixel
  intro s rd
  exact paintCommand_repaints rfl fun b x y hx hy => lastWrite_grid b.w b.h (fun _ => s.opC) x y hx hy

/-- Settles O41: the clipped rectangle is the operands' own, at the pixels of the buffer. -/
theorem fillrectPaintsTheClippedRectangle : Obligations.FillrectPaintsTheClippedRectangle := by
  unfold Obligations.FillrectPaintsTheClippedRectangle
  intro s rd
  exact paintCommand_repaints rfl fun b x y hx hy => lastWrite_fillrectWrites hx hy s.opX s.opY s.opW s.opH s.opC

theorem exec_fillrect_of_valid {s : State} {rd : SlotIx} {b : Buffer} (hb : s.slot rd = some b) :
    exec (.fillrect rd) s =
      .next (s.setSlot rd (some (b.writeAll (fillrectWrites b s.opX s.opY s.opW s.opH s.opC)))) :=
  needBuffer_some rd s _ b hb

theorem exec_fill_of_valid {s : State} {rd : SlotIx} {b : Buffer} (hb : s.slot rd = some b) :
    exec (.fill rd) s = .next (s.setSlot rd (some (b.writeAll (fillWrites b s.opC)))) :=
  needBuffer_some rd s _ b hb

/-- Settles O42: the closed form and the loop have the same last write at every pixel of the buffer. -/
theorem fillrectEqualsTheGoldenLoop : Obligations.FillrectEqualsTheGoldenLoop := by
  unfold Obligations.FillrectEqualsTheGoldenLoop
  intro s rd
  refine ⟨needBuffer_none rd s _, fun b hb hok => ?_⟩
  have hsame : b.writeAll (fillrectWrites b s.opX s.opY s.opW s.opH s.opC) =
      b.writeAll (fillrectGolden s.opX s.opY s.opW s.opH s.opC) :=
    Buffer.writeAll_congr hok fun x y hx hy => by
      rw [lastWrite_fillrectWrites hx hy, lastWrite_fillrectGolden]
  rw [exec_fillrect_of_valid hb, hsame]

/-- FILLRECT of the whole buffer makes FILL's writes, one by one (rules R141, R150). -/
theorem fillrectWrites_whole (b : Buffer) (c : Int) : fillrectWrites b 0 0 b.w b.h c = fillWrites b c := by
  simp [fillrectWrites, clipRect, fillWrites]

/-- Settles O43: the two commands apply one list of writes. -/
theorem fillEqualsFillrectOfTheWholeBuffer : Obligations.FillEqualsFillrectOfTheWholeBuffer := by
  unfold Obligations.FillEqualsFillrectOfTheWholeBuffer
  intro s rd b hb hX hY hW hH
  refine ⟨?_, _, exec_fill_of_valid hb⟩
  rw [exec_fill_of_valid hb, exec_fillrect_of_valid hb, hX, hY, hW, hH, fillrectWrites_whole]

/-! ### FLIPX and FLIPY -/

theorem lastWrite_flipxWrites (b : Buffer) (x y : Nat) (hx : x < b.w) (hy : y < b.h) :
    lastWrite (flipxWrites b) x y = some (b.pixRead (b.w - 1 - x) y : Int) :=
  lastWrite_grid b.w b.h (fun q => b.pixRead (b.w - 1 - q.1) q.2) x y hx hy

theorem lastWrite_flipyWrites (b : Buffer) (x y : Nat) (hx : x < b.w) (hy : y < b.h) :
    lastWrite (flipyWrites b) x y = some (b.pixRead x (b.h - 1 - y) : Int) :=
  lastWrite_grid b.w b.h (fun q => b.pixRead q.1 (b.h - 1 - q.2)) x y hx hy

/-- Settles O44. -/
theorem flipxMirrorsEachRow : Obligations.FlipxMirrorsEachRow := by
  unfold Obligations.FlipxMirrorsEachRow
  intro s rd
  exact paintCommand_repaints rfl lastWrite_flipxWrites

/-- Settles O45. -/
theorem flipyMirrorsTheRows : Obligations.FlipyMirrorsTheRows := by
  unfold Obligations.FlipyMirrorsTheRows
  intro s rd
  exact paintCommand_repaints rfl lastWrite_flipyWrites

/-- A mirror of `n` positions keeps them and undoes itself. -/
theorem mirror_involution {n k : Nat} (hk : k < n) : n - 1 - k < n ∧ n - 1 - (n - 1 - k) = k := by omega

/-- Writes that move every pixel by `p` and `r`, applied and then made and applied again, restore the buffer. -/
theorem Buffer.writeAll_involution {b : Buffer} {p r : Nat → Nat} {ws : Buffer → List PixelWrite} (hb : b.ok = true)
    (hp : ∀ x < b.w, p x < b.w ∧ p (p x) = x) (hr : ∀ y < b.h, r y < b.h ∧ r (r y) = y)
    (hws : ∀ b', b.SameShape b' → ∀ x y : Nat, x < b'.w → y < b'.h →
      lastWrite (ws b') x y = some (b'.pixRead (p x) (r y) : Int)) :
    (b.writeAll (ws b)).writeAll (ws (b.writeAll (ws b))) = b := by
  have hok' := b.writeAll_ok hb (ws b)
  obtain ⟨-, -, hwf, -⟩ := b.ok_iff.mp hb
  obtain ⟨-, -, hwf', -⟩ := (Buffer.ok_iff _).mp hok'
  have honce := b.writeAll_repaints hwf _ _ (hws b ⟨rfl, rfl, rfl⟩)
  have htwice := Buffer.writeAll_repaints _ hwf' _ _ (hws _ honce.shape)
  exact honce.involution hb (Buffer.writeAll_ok _ hok' _) hp hr htwice

theorem Buffer.flipx_flipx {b : Buffer} (hb : b.ok = true) :
    (b.writeAll (flipxWrites b)).writeAll (flipxWrites (b.writeAll (flipxWrites b))) = b :=
  Buffer.writeAll_involution (p := fun x => b.w - 1 - x) (r := id) hb (fun _ => mirror_involution)
    (fun _ hy => ⟨hy, rfl⟩) fun b' hs => hs.w_eq ▸ lastWrite_flipxWrites b'

theorem Buffer.flipy_flipy {b : Buffer} (hb : b.ok = true) :
    (b.writeAll (flipyWrites b)).writeAll (flipyWrites (b.writeAll (flipyWrites b))) = b :=
  Buffer.writeAll_involution (p := id) (r := fun y => b.h - 1 - y) hb (fun _ hx => ⟨hx, rfl⟩)
    (fun _ => mirror_involution) fun b' hs => hs.h_eq ▸ lastWrite_flipyWrites b'

/-- A painting command run twice gives the state back, if its two lists of writes give the buffer back. -/
theorem paintCommand_twice {i : Instr} {rd : SlotIx} {ws : Buffer → List PixelWrite}
    (hexec : ∀ s, exec i s = needBuffer rd s fun b => paint rd b (ws b) s) {s : State} {b : Buffer}
    (hb : s.slot rd = some b) (hback : (b.writeAll (ws b)).writeAll (ws (b.writeAll (ws b))) = b) :
    ∃ t, exec i s = .next t ∧ exec i t = .next s := by
  refine ⟨s.setSlot rd (some (b.writeAll (ws b))), (hexec s).trans (needBuffer_some rd s _ b hb), ?_⟩
  rw [hexec, needBuffer_some rd _ _ _ (State.slot_setSlot_self s rd _), paint_eq, hback, State.setSlot_setSlot, ← hb,
    State.setSlot_slot]

/-- Settles O46: a flip is an involution of the buffer, and writing back what a slot held changes nothing. -/
theorem flippingTwiceIsTheIdentity : Obligations.FlippingTwiceIsTheIdentity := by
  unfold Obligations.FlippingTwiceIsTheIdentity
  intro s rd b hb hok
  exact ⟨paintCommand_twice (fun _ => rfl) hb (Buffer.flipx_flipx hok),
    paintCommand_twice (fun _ => rfl) hb (Buffer.flipy_flipy hok)⟩

/-! ### SCROLL and REPLACE -/

theorem lastWrite_scrollWrites {b : Buffer} {x y : Nat} (hx : x < b.w) (hy : y < b.h) (dx dy : Int) :
    lastWrite (scrollWrites b dx dy) x y =
      if 0 ≤ (x : Int) - dx ∧ (x : Int) - dx < b.w ∧ 0 ≤ (y : Int) - dy ∧ (y : Int) - dy < b.h
      then some (b.pixRead (x - dx).toNat (y - dy).toNat : Int) else some 0 := by
  rw [scrollWrites, lastWrite_grid b.w b.h _ x y hx hy]
  simp only [Buffer.inBounds_iff, scrollFill]
  exact apply_ite some _ _ _

/-- Settles O47: the pixel a write asks for is in the buffer exactly under the condition the rule states. -/
theorem scrollShiftsAndExposesZero : Obligations.ScrollShiftsAndExposesZero := by
  unfold Obligations.ScrollShiftsAndExposesZero
  intro s rd
  exact paintCommand_repaints rfl fun b x y hx hy => lastWrite_scrollWrites hx hy s.opX s.opY

theorem lastWrite_replaceWrites {b : Buffer} {x y : Nat} (hx : x < b.w) (hy : y < b.h) (old new : Int) :
    lastWrite (replaceWrites b old new) x y = if (b.pixRead x y : Int) = old then some new else none := by
  rw [replaceWrites, lastWrite_filter_grid _ (fun _ => new) hx hy]
  simp only [beq_iff_eq]

/-- Settles O50: the pixels written are those equal to `C`. -/
theorem replaceRewritesTheMatchingPixels : Obligations.ReplaceRewritesTheMatchingPixels := by
  unfold Obligations.ReplaceRewritesTheMatchingPixels
  intro s rd
  exact paintCommand_repaints rfl fun b x y hx hy => lastWrite_replaceWrites hx hy s.opC s.opC2

end Sys2Proof.Machine
end

section
/-! PROOF. The doubling commands DOUBLEDX, DOUBLEDY, DOUBLED (`43_rectangular.md` rules R146 to R148): the new buffer
pixel by pixel, the checks in order, and doubling in two steps. -/

namespace Sys2Proof.Machine

/-! ### The new buffer -/

@[simp] theorem doubledBuffer_depth (b : Buffer) (kx ky : Nat) : (doubledBuffer b kx ky).depth = b.depth :=
  Buffer.writeAll_depth _ _

section
variable {b : Buffer} {kx ky : Nat} (hw : kx * b.w ≤ 65535) (hh : ky * b.h ≤ 65535)
include hw hh

/-- The new buffer is the zero-filled one repainted whole, each pixel from its block's source (rules R146 to R148). -/
theorem doubledBuffer_repaints :
    (Buffer.zeroed (kx * b.w) (ky * b.h) b.depth).Repaints (doubledBuffer b kx ky)
      fun x y => some (b.pixRead (x / kx) (y / ky)) := by
  refine Buffer.writeAll_repaints _ Memory.wf_nil _ _ fun x y hx hy => ?_
  rw [Buffer.zeroed_w _ _ _ (by omega)] at hx
  rw [Buffer.zeroed_h _ _ _ (by omega)] at hy
  exact lastWrite_grid _ _ (fun q => b.pixRead (q.1 / kx) (q.2 / ky)) x y hx hy

theorem doubledBuffer_w : (doubledBuffer b kx ky).w = kx * b.w := by
  rw [(doubledBuffer_repaints hw hh).shape.w_eq, Buffer.zeroed_w _ _ _ (by omega)]

theorem doubledBuffer_h : (doubledBuffer b kx ky).h = ky * b.h := by
  rw [(doubledBuffer_repaints hw hh).shape.h_eq, Buffer.zeroed_h _ _ _ (by omega)]

theorem doubledBuffer_len : (doubledBuffer b kx ky).len = dataLen (kx * b.w) (ky * b.h) b.depth := by
  rw [(doubledBuffer_repaints hw hh).shape.len_eq, Buffer.zeroed_len _ _ _ (by omega) (by omega)]

theorem doubledBuffer_pixRead {x y : Nat} (hx : x < kx * b.w) (hy : y < ky * b.h) :
    (doubledBuffer b kx ky).pixRead x y = b.pixRead (x / kx) (y / ky) := by
  rw [(doubledBuffer_repaints hw hh).painted x y _ (by rwa [Buffer.zeroed_w _ _ _ (by omega)])
    (by rwa [Buffer.zeroed_h _ _ _ (by omega)]) rfl]
  exact b.truncate_pixRead _ _

/-- The padding lanes of the new buffer are 0 (rule R46). -/
theorem doubledBuffer_padding {x y : Nat} (hx : kx * b.w ≤ x) (hl : x < (doubledBuffer b kx ky).lanesPerRow)
    (hy : y < ky * b.h) : (doubledBuffer b kx ky).pixRead x y = 0 := by
  have hrep := doubledBuffer_repaints hw hh
  rw [hrep.shape.lanesPerRow_eq] at hl
  rw [hrep.padding x y (by rwa [Buffer.zeroed_w _ _ _ (by omega)]) hl (by rwa [Buffer.zeroed_h _ _ _ (by omega)]),
    Buffer.zeroed_pixRead]

/-- Scaling in two steps is scaling by the products of the factors. -/
theorem doubledBuffer_doubledBuffer (jx jy : Nat) :
    doubledBuffer (doubledBuffer b kx ky) jx jy = doubledBuffer b (jx * kx) (jy * ky) := by
  have hwrites : doubledWrites (doubledBuffer b kx ky) jx jy = doubledWrites b (jx * kx) (jy * ky) := by
    rw [doubledWrites, doubledWrites, doubledBuffer_w hw hh, doubledBuffer_h hw hh, Nat.mul_assoc, Nat.mul_assoc]
    refine List.map_congr_left fun q hq => ?_
    obtain ⟨hx, hy⟩ := (mem_grid_pair _ _ q).mp hq
    rw [doubledBuffer_pixRead hw hh (Nat.div_lt_of_lt_mul hx) (Nat.div_lt_of_lt_mul hy), Nat.div_div_eq_div_mul,
      Nat.div_div_eq_div_mul]
  rw [doubledBuffer, hwrites, doubledBuffer_w hw hh, doubledBuffer_h hw hh, doubledBuffer_depth, ← Nat.mul_assoc,
    ← Nat.mul_assoc, ← doubledBuffer]

end

/-! ### The checks in order -/

/-- The condition of `DimRange` for the doubling commands (rules R146, R188). -/
theorem doubledDims_iff {w h : Nat} :
    (decide (Config.maxDim < w) || decide (Config.maxDim < h)) = true ↔ 65535 < w ∨ 65535 < h := by
  rw [Bool.or_eq_true, decide_eq_true_eq, decide_eq_true_eq, Config.maxDim]

section
variable {s : State} {rd rs : SlotIx} {b : Buffer} {kx ky : Nat} (hb : s.slot rs = some b)
include hb

theorem doubleInto_of_busy (hbusy : s.slot rd ≠ none) :
    doubleInto rd rs kx ky s = .next (s.takeFault .slotBusy) := by
  obtain ⟨o, ho⟩ := Option.ne_none_iff_exists'.mp hbusy
  rw [doubleInto, needBuffer_some rs s _ b hb, needFree_some rd s _ o ho]

theorem doubleInto_of_dims (hfree : s.slot rd = none) (hdims : 65535 < kx * b.w ∨ 65535 < ky * b.h) :
    doubleInto rd rs kx ky s = .next (s.takeFault .dimRange) := by
  rw [doubleInto, needBuffer_some rs s _ b hb, needFree_none rd s _ hfree, check_pos _ _ _ (doubledDims_iff.mpr hdims)]

variable (hfree : s.slot rd = none) (hw : kx * b.w ≤ 65535) (hh : ky * b.h ≤ 65535)
include hfree hw hh

/-- With the first three checks passed, the new buffer is installed if the capacity allows (rules R146, R191). -/
theorem doubleInto_of_legal : doubleInto rd rs kx ky s = install rd (doubledBuffer b kx ky) s := by
  have hdims : (decide (Config.maxDim < kx * b.w) || decide (Config.maxDim < ky * b.h)) = false := by
    rw [← Bool.not_eq_true, doubledDims_iff]
    omega
  rw [doubleInto, needBuffer_some rs s _ b hb, needFree_none rd s _ hfree, check_neg _ _ _ hdims]

theorem doubleInto_of_no_room
    (hcap : ∃ c, s.pmCapacity = some c ∧ c < s.used + dataLen (kx * b.w) (ky * b.h) b.depth) :
    doubleInto rd rs kx ky s = .next (s.takeFault .allocFail) := by
  rw [← doubledBuffer_len hw hh] at hcap
  rw [doubleInto_of_legal hb hfree hw hh, install_of_not_fits _ _ _ ((s.fits_eq_false _).mpr hcap)]

theorem doubleInto_of_room
    (hcap : ∀ c, s.pmCapacity = some c → s.used + dataLen (kx * b.w) (ky * b.h) b.depth ≤ c) :
    doubleInto rd rs kx ky s = .next (s.setSlot rd (some (doubledBuffer b kx ky))) := by
  rw [← doubledBuffer_len hw hh] at hcap
  rw [doubleInto_of_legal hb hfree hw hh, install_of_fits _ _ _ ((s.fits_eq_true _).mpr hcap)]

end

/-! ### The commands -/

/-- The three commands are one body with the factors of rules R146 to R148. -/
theorem exec_doubling {i : Instr} {rd rs : SlotIx} {kx ky : Nat}
    (hi : i = .doubledx rd rs ∧ kx = 2 ∧ ky = 1 ∨ i = .doubledy rd rs ∧ kx = 1 ∧ ky = 2 ∨
      i = .doubled rd rs ∧ kx = 2 ∧ ky = 2) (s : State) : exec i s = doubleInto rd rs kx ky s := by
  rcases hi with ⟨rfl, rfl, rfl⟩ | ⟨rfl, rfl, rfl⟩ | ⟨rfl, rfl, rfl⟩
  · rfl
  · rfl
  · rfl

/-- Settles O48: one clause for each check, then the new buffer's lanes. -/
theorem doublingReplicatesEachPixel : Obligations.DoublingReplicatesEachPixel := by
  unfold Obligations.DoublingReplicatesEachPixel
  intro s rd rs kx ky i hi
  rw [takesBadSlot, exec_doubling hi]
  refine ⟨needBuffer_none rs s _, fun b hb => ⟨doubleInto_of_busy hb, doubleInto_of_dims hb,
    doubleInto_of_no_room hb, fun hfree hw hh hcap => ?_⟩⟩
  refine ⟨doubledBuffer b kx ky, doubleInto_of_room hb hfree hw hh hcap, doubledBuffer_w hw hh, doubledBuffer_h hw hh,
    doubledBuffer_depth b kx ky, fun x y hx hy => ?_, fun x y hx hl hy => ?_⟩
  · exact doubledBuffer_pixRead hw hh (doubledBuffer_w hw hh ▸ hx) (doubledBuffer_h hw hh ▸ hy)
  · exact doubledBuffer_padding hw hh (doubledBuffer_w hw hh ▸ hx) hl (doubledBuffer_h hw hh ▸ hy)

/-- Scaling into slot `x` and from there into slot `y` completes where the capacity has room for both new buffers, and
leaves in `y` the buffer scaled by the products of the factors. -/
theorem doubleInto_twice {s : State} {rs x y : SlotIx} {b : Buffer} {kx ky jx jy : Nat} (hb : s.slot rs = some b)
    (hx : s.slot x = none) (hy : s.slot y = none) (hxy : x ≠ y) (hkw : kx * b.w ≤ 65535) (hkh : ky * b.h ≤ 65535)
    (hjw : jx * (kx * b.w) ≤ 65535) (hjh : jy * (ky * b.h) ≤ 65535)
    (hcap : ∀ c, s.pmCapacity = some c → s.used + dataLen (kx * b.w) (ky * b.h) b.depth
      + dataLen (jx * (kx * b.w)) (jy * (ky * b.h)) b.depth ≤ c) :
    ∃ u v, doubleInto x rs kx ky s = .next u ∧ doubleInto y x jx jy u = .next v ∧
      v.slot y = some (doubledBuffer b (jx * kx) (jy * ky)) := by
  have hfst := doubleInto_of_room hb hx hkw hkh fun c hc => (Nat.le_add_right _ _).trans (hcap c hc)
  have hused : (s.setSlot x (some (doubledBuffer b kx ky))).used = s.used + dataLen (kx * b.w) (ky * b.h) b.depth := by
    rw [State.used_setSlot_of_free s x _ hx, doubledBuffer_len hkw hkh]
  have hsnd := doubleInto_of_room (rd := y) (kx := jx) (ky := jy)
    (State.slot_setSlot_self s x (some (doubledBuffer b kx ky)))
    ((State.slot_setSlot_ne s x y _ hxy.symm).trans hy)
    (by rwa [doubledBuffer_w hkw hkh]) (by rwa [doubledBuffer_h hkw hkh])
    (by rwa [hused, doubledBuffer_w hkw hkh, doubledBuffer_h hkw hkh, doubledBuffer_depth])
  refine ⟨_, _, hfst, hsnd, ?_⟩
  rw [State.slot_setSlot_self, doubledBuffer_doubledBuffer hkw hkh]

/-- Settles O49: both orders scale by 2 and 2 in two steps. -/
theorem doubledIsDoubledxThenDoubledy : Obligations.DoubledIsDoubledxThenDoubledy := by
  unfold Obligations.DoubledIsDoubledxThenDoubledy
  intro s rs d x y b hb hd hx hy hxy hw hh hcap
  have hone := doubleInto_of_room hb hd hw hh fun c hc => by
    have := (hcap c hc).1
    omega
  obtain ⟨u, v, hu, hv, hslot⟩ := doubleInto_twice (kx := 2) (ky := 1) (jx := 1) (jy := 2) hb hx hy hxy (by omega)
    (by omega) (by omega) (by omega) (by simpa only [Nat.one_mul] using fun c hc => (hcap c hc).1)
  obtain ⟨u', v', hu', hv', hslot'⟩ := doubleInto_twice (kx := 1) (ky := 2) (jx := 2) (jy := 1) hb hx hy hxy (by omega)
    (by omega) (by omega) (by omega) (by simpa only [Nat.one_mul] using fun c hc => (hcap c hc).2)
  refine ⟨_, u, v, u', v', hone, hu, hv, hu', hv', ?_⟩
  rw [State.slot_setSlot_self]
  exact ⟨Option.some_ne_none _, hslot, hslot'⟩

end Sys2Proof.Machine
end

section
/-! PROOF. The composition commands DRAWIMAGE, DRAWTRANSPARENT, OVERLAPS, DRAWCORE (`44_composition.md` rules R160 to
R167). The three DRAW commands are one blit: a list of writes over the moved source rectangle, behind the checks of
rule R160. OVERLAPS answers whether that rectangle meets the destination, so where it answers 0 a blit writes
nothing. -/

namespace Sys2Proof.Machine

/-! ### The writes of a blit -/

/-- The writes of a blit from `src` to `(x, y)`: at the source pixels that meet `p`, the values `v` (rules R161, R162,
R164). -/
def blitWrites (src : Buffer) (p : Nat × Nat → Bool) (v : Nat × Nat → Int) (x y : Int) : List PixelWrite :=
  ((grid src.w src.h).filter p).map fun q => ⟨x + q.1, y + q.2, v q⟩

theorem drawimageWrites_eq (src : Buffer) (x y : Int) :
    drawimageWrites src x y = blitWrites src (fun _ => true) (fun q => src.pixRead q.1 q.2) x y := by
  rw [blitWrites, List.filter_true, drawimageWrites]

theorem drawtransparentWrites_eq (src : Buffer) (x y : Int) : drawtransparentWrites src x y =
    blitWrites src (fun q => src.pixRead q.1 q.2 != 0) (fun q => src.pixRead q.1 q.2) x y := rfl

theorem drawcoreWrites_eq (src : Buffer) (x y c : Int) :
    drawcoreWrites src x y c = blitWrites src (fun q => src.pixRead q.1 q.2 != 0) (fun _ => c) x y := rfl

/-- The last write of a blit at `(x, y)` comes from the source pixel `(x - dx, y - dy)`, if there is one and it meets
the blit's condition. -/
theorem lastWrite_blitWrites (src : Buffer) (p : Nat × Nat → Bool) (v : Nat × Nat → Int) (dx dy x y : Int) :
    lastWrite (blitWrites src p v dx dy) x y =
      if (0 ≤ x - dx ∧ x - dx < src.w ∧ 0 ≤ y - dy ∧ y - dy < src.h) ∧ p ((x - dx).toNat, (y - dy).toNat) = true
      then some (v ((x - dx).toNat, (y - dy).toNat)) else none := by
  split
  · next hsrc =>
    obtain ⟨hin, hp⟩ := hsrc
    exact lastWrite_moved_some src.w src.h p dx dy v _ _ (by omega) (by omega) hp x y (by omega) (by omega)
  · next hsrc =>
    refine lastWrite_moved_none src.w src.h p dx dy v x y ?_
    rintro i j hi hj hp ⟨rfl, rfl⟩
    simp only [add_sub_cancel_left, Int.toNat_natCast] at hsrc
    exact hsrc ⟨by omega, hp⟩

/-- Every write of a blit lands at `(X + i, Y + j)` for a pixel `(i, j)` of the source. -/
theorem place_of_mem_blitWrites {src : Buffer} {p : Nat × Nat → Bool} {v : Nat × Nat → Int} {x y : Int} {q : PixelWrite}
    (hq : q ∈ blitWrites src p v x y) : ∃ i j : Nat, i < src.w ∧ j < src.h ∧ q.x = x + i ∧ q.y = y + j := by
  obtain ⟨⟨i, j⟩, hij, rfl⟩ := List.mem_map.mp hq
  obtain ⟨hi, hj⟩ := (mem_grid _ _ i j).mp (List.mem_filter.mp hij).1
  exact ⟨i, j, hi, hj, rfl, rfl⟩

/-- Writes that are all clipped away change nothing (rule R49). -/
theorem Buffer.writeAll_of_clipped {b : Buffer} {ws : List PixelWrite} (h : ∀ q ∈ ws, b.inBounds q.x q.y = false) :
    b.writeAll ws = b := by
  have hnone : ws.filter (fun q => b.inBounds q.x q.y) = [] :=
    List.filter_eq_nil_iff.mpr fun q hq => Bool.not_eq_true _ ▸ h q hq
  rw [← b.writeAll_filter_inBounds, hnone, Buffer.writeAll_nil]

/-! ### The checks in order -/

/-- A DRAW command with its condition of `DepthMismatch` and its writes as parameters: the checks of rule R160, then the
paint of `RD`'s buffer. -/
def drawInto (rd rs : SlotIx) (mismatch : Buffer → Buffer → Bool) (ws : Buffer → List PixelWrite) (s : State) :
    Result :=
  needTwo rd rs s fun dst src =>
    check (rd == rs) .alias_ s (check (mismatch dst src) .depthMismatch s (paint rd dst (ws src) s))

theorem exec_drawimage (rd rs : SlotIx) (s : State) : exec (.drawimage rd rs) s =
    drawInto rd rs (strictMismatch s) (fun o => drawimageWrites o s.opX s.opY) s := rfl

theorem exec_drawtransparent (rd rs : SlotIx) (s : State) : exec (.drawtransparent rd rs) s =
    drawInto rd rs (strictMismatch s) (fun o => drawtransparentWrites o s.opX s.opY) s := rfl

/-- DRAWCORE has no `DepthMismatch` (rules R164, R187). -/
theorem exec_drawcore (rd rs : SlotIx) (s : State) : exec (.drawcore rd rs) s =
    drawInto rd rs (fun _ _ => false) (fun o => drawcoreWrites o s.opX s.opY s.opC) s := rfl

theorem strictMismatch_eq_true {s : State} {b o : Buffer} :
    strictMismatch s b o = true ↔ s.strict = true ∧ o.depth ≠ b.depth := by
  rw [strictMismatch, Bool.and_eq_true, bne_iff_ne]

theorem strictMismatch_eq_false {s : State} {b o : Buffer} :
    strictMismatch s b o = false ↔ s.strict = false ∨ o.depth = b.depth := by
  rw [strictMismatch, Bool.and_eq_false_iff, bne_eq_false_iff_eq]

theorem takesBadSlot_of_drawInto {i : Instr} {rd rs : SlotIx} {m : Buffer → Buffer → Bool}
    {ws : Buffer → List PixelWrite} {s : State} (hexec : exec i s = drawInto rd rs m ws s) :
    takesBadSlot i rd s ∧ takesBadSlot i rs s :=
  ⟨fun h => hexec.trans (needTwo_none_left rd rs s _ h), fun h => hexec.trans (needTwo_none_right rd rs s _ h)⟩

section
variable {s : State} {rd rs : SlotIx} {b o : Buffer} (hb : s.slot rd = some b) (ho : s.slot rs = some o)
  {m : Buffer → Buffer → Bool} {ws : Buffer → List PixelWrite}
include hb ho

theorem drawInto_of_sameSlot (hsame : rd = rs) : drawInto rd rs m ws s = .next (s.takeFault .alias_) := by
  rw [drawInto, needTwo_some rd rs s _ b o hb ho, check_pos _ _ _ (beq_iff_eq.mpr hsame)]

variable (hne : rd ≠ rs)
include hne

theorem drawInto_of_mismatch (hm : m b o = true) : drawInto rd rs m ws s = .next (s.takeFault .depthMismatch) := by
  rw [drawInto, needTwo_some rd rs s _ b o hb ho, check_neg _ _ _ (beq_eq_false_iff_ne.mpr hne), check_pos _ _ _ hm]

theorem drawInto_of_match (hm : m b o = false) :
    drawInto rd rs m ws s = .next (s.setSlot rd (some (b.writeAll (ws o)))) := by
  rw [drawInto, needTwo_some rd rs s _ b o hb ho, check_neg _ _ _ (beq_eq_false_iff_ne.mpr hne), check_neg _ _ _ hm,
    paint]

theorem drawInto_repaints (hm : m b o = false) (hok : b.ok = true) {f : Nat → Nat → Option Int}
    (hf : ∀ x y : Nat, lastWrite (ws o) x y = f x y) :
    ∃ b', drawInto rd rs m ws s = .next (s.setSlot rd (some b')) ∧ b.Repaints b' f := by
  obtain ⟨-, -, hwf, -⟩ := b.ok_iff.mp hok
  exact ⟨_, drawInto_of_match hb ho hne hm, b.writeAll_repaints hwf _ _ fun x y _ _ => hf x y⟩

/-- A blit whose writes are all clipped away leaves the state as it is (rule R167). -/
theorem drawInto_of_clipped (hm : m b o = false) (hclip : ∀ q ∈ ws o, b.inBounds q.x q.y = false) :
    drawInto rd rs m ws s = .next s := by
  rw [drawInto_of_match hb ho hne hm, Buffer.writeAll_of_clipped hclip, ← hb, State.setSlot_slot]

end

/-! ### The DRAW commands -/

/-- The two commands that obey `STRICT`: the faults in rule R160's order, else the repainting their writes make. -/
theorem strictDraw_repaints {i : Instr} {s : State} {rd rs : SlotIx} {ws : Buffer → List PixelWrite}
    {f : Buffer → Nat → Nat → Option Int} (hexec : exec i s = drawInto rd rs (strictMismatch s) ws s)
    (hf : ∀ (o : Buffer) (x y : Nat), lastWrite (ws o) x y = f o x y) :
    (takesBadSlot i rd s ∧ takesBadSlot i rs s) ∧
    ∀ b o, s.slot rd = some b → s.slot rs = some o →
      (rd = rs → exec i s = .next (s.takeFault .alias_)) ∧
      (rd ≠ rs → s.strict = true → o.depth ≠ b.depth → exec i s = .next (s.takeFault .depthMismatch)) ∧
      (rd ≠ rs → (s.strict = false ∨ o.depth = b.depth) → b.ok = true →
        ∃ b', exec i s = .next (s.setSlot rd (some b')) ∧ b.Repaints b' (f o)) := by
  refine ⟨takesBadSlot_of_drawInto hexec, fun b o hb ho => ?_⟩
  rw [hexec]
  exact ⟨drawInto_of_sameSlot hb ho,
    fun hne hstrict hdepth => drawInto_of_mismatch hb ho hne (strictMismatch_eq_true.mpr ⟨hstrict, hdepth⟩),
    fun hne hmatch hok => drawInto_repaints hb ho hne (strictMismatch_eq_false.mpr hmatch) hok (hf o)⟩

/-- Settles O51: every source pixel is written, at its own place. -/
theorem drawimageCopiesEverySourcePixel : Obligations.DrawimageCopiesEverySourcePixel := by
  unfold Obligations.DrawimageCopiesEverySourcePixel
  intro s rd rs
  refine strictDraw_repaints (exec_drawimage rd rs s) fun o x y => ?_
  simp only [drawimageWrites_eq, lastWrite_blitWrites, and_true]

/-- Settles O52: the condition of a write is on the source's value, which the destination's depth has not masked. -/
theorem drawtransparentSkipsZeroPixels : Obligations.DrawtransparentSkipsZeroPixels := by
  unfold Obligations.DrawtransparentSkipsZeroPixels
  intro s rd rs
  refine strictDraw_repaints (exec_drawtransparent rd rs s) fun o x y => ?_
  simp only [drawtransparentWrites_eq, lastWrite_blitWrites, bne_iff_ne]

/-- Settles O53: the writes are DRAWTRANSPARENT's, each with the colour `C`; neither `STRICT` nor a depth is asked. -/
theorem drawcoreStencilsInOneColour : Obligations.DrawcoreStencilsInOneColour := by
  unfold Obligations.DrawcoreStencilsInOneColour
  intro s rd rs
  refine ⟨takesBadSlot_of_drawInto (exec_drawcore rd rs s), fun b o hb ho => ?_⟩
  rw [exec_drawcore]
  refine ⟨drawInto_of_sameSlot hb ho, fun hne hok => drawInto_repaints hb ho hne rfl hok fun x y => ?_⟩
  simp only [drawcoreWrites_eq, lastWrite_blitWrites, bne_iff_ne]

/-! ### OVERLAPS -/

theorem rectsMeet_iff (b o : Buffer) (x y : Int) :
    rectsMeet b o x y = true ↔ x < b.w ∧ y < b.h ∧ 0 < x + o.w ∧ 0 < y + o.h := by
  simp only [rectsMeet, Bool.and_eq_true, decide_eq_true_eq, and_assoc]

/-- OVERLAPS of two valid slots is its Boolean, as 1 or 0 (rules R13, R163). -/
theorem exec_overlaps_of_valid {s : State} {rd rs : SlotIx} {b o : Buffer} (hb : s.slot rd = some b)
    (ho : s.slot rs = some o) : exec (.overlaps rd rs) s =
      .next (s.withResult (if rectsMeet b o s.opX s.opY = true then 1#32 else 0#32)) :=
  (needTwo_some rd rs s _ b o hb ho).trans (answer_boolResult s _)

/-- Settles O54. -/
theorem overlapsComparesTheRectangles : Obligations.OverlapsComparesTheRectangles := by
  unfold Obligations.OverlapsComparesTheRectangles
  intro s rd rs
  refine ⟨⟨needTwo_none_left rd rs s _, needTwo_none_right rd rs s _⟩, fun b o hb ho => ?_⟩
  simp only [exec_overlaps_of_valid hb ho, rectsMeet_iff]

/-- Two results that differ in `RES` are two states. -/
theorem State.withResult_inj {s : State} {v v' : Word} : s.withResult v = s.withResult v' ↔ v = v' :=
  ⟨fun h => congrArg (fun t : State => t.regs.res) h, congrArg s.withResult⟩

theorem exec_overlaps_eq_zero_iff {s : State} {rd rs : SlotIx} {b o : Buffer} (hb : s.slot rd = some b)
    (ho : s.slot rs = some o) :
    exec (.overlaps rd rs) s = .next (s.withResult 0#32) ↔ rectsMeet b o s.opX s.opY = false := by
  rw [exec_overlaps_of_valid hb ho, Host.Outcome.next.injEq, State.withResult_inj]
  cases rectsMeet b o s.opX s.opY with
  | true => decide
  | false => decide

/-- The rectangles of two buffers that meet rule R31 are apart exactly when every source pixel is clipped away: where
they meet, the first source column and row inside the destination, `max(0, -X)` and `max(0, -Y)`, are a pixel of the
window (rules R166, R167). -/
theorem rectsMeet_eq_false_iff {b o : Buffer} (hb : b.ok = true) (ho : o.ok = true) (x y : Int) :
    rectsMeet b o x y = false ↔ ∀ i j : Nat, i < o.w → j < o.h → b.inBounds (x + i) (y + j) = false := by
  obtain ⟨hbw, hbh, -, -⟩ := b.ok_iff.mp hb
  obtain ⟨how, hoh, -, -⟩ := o.ok_iff.mp ho
  simp only [← Bool.not_eq_true, rectsMeet_iff, Buffer.inBounds_iff]
  constructor
  · intro hapart i j hi hj hin
    omega
  · intro hclip hmeet
    have hfirst := hclip (-x).toNat (-y).toNat (by omega) (by omega)
    omega

/-- Settles O55: the writes of each DRAW command land where OVERLAPS says that every pixel is clipped. -/
theorem overlapsZeroMeansDrawingDoesNothing : Obligations.OverlapsZeroMeansDrawingDoesNothing := by
  unfold Obligations.OverlapsZeroMeansDrawingDoesNothing
  intro s rd rs b o hb ho hbok hook
  rw [exec_overlaps_eq_zero_iff hb ho, rectsMeet_eq_false_iff hbok hook]
  refine ⟨Iff.rfl, fun hclip hne => ?_⟩
  have hblit : ∀ p v, ∀ q ∈ blitWrites o p v s.opX s.opY, b.inBounds q.x q.y = false := by
    intro p v q hq
    obtain ⟨i, j, hi, hj, hx, hy⟩ := place_of_mem_blitWrites hq
    rw [hx, hy]
    exact hclip i j hi hj
  simp only [exec_drawcore, drawcoreWrites_eq, exec_drawimage, drawimageWrites_eq, exec_drawtransparent,
    drawtransparentWrites_eq]
  refine ⟨drawInto_of_clipped hb ho hne rfl (hblit _ _), fun hmatch => ?_⟩
  have hm := strictMismatch_eq_false.mpr hmatch
  exact ⟨drawInto_of_clipped hb ho hne hm (hblit _ _), drawInto_of_clipped hb ho hne hm (hblit _ _)⟩

end Sys2Proof.Machine
end

section
/-! PROOF. Faults (`60_exceptions.md`): the checks of one command, in the order of rule R193, and the halted engine of
rule R195. What a command does with its faults is said once: it goes through the faults it has, in order, takes the
first that arises, and completes when none does. The three statements about faults are read off that. -/

namespace Sys2Proof.Machine

/-! ### The faults a command has -/

/-- The faults of each command, in the order of its checks: the "Faults" entries of rules R90 to R94, R110 to R116,
R134, R141 to R149 and R161 to R164. -/
def commandFaults : Instr → List Cause
  | .nop | .xlut _ => []
  | .free _ | .width _ | .height _ | .ismono _ | .fill _ | .fillrect _ | .flipx _ | .flipy _ | .scroll _ | .replace _
  | .overlaps _ _ => [.badSlot]
  | .alloc _ _ => [.slotBusy, .dimRange, .allocFail]
  | .ldb _ | .stb _ => [.badSlot, .offsetRange]
  | .getpixel _ | .setpixel _ => [.badSlot, .coordRange]
  | .clone _ _ => [.badSlot, .slotBusy, .allocFail]
  | .copyfrom _ _ => [.badSlot, .dimMismatch]
  | .doubledx _ _ | .doubledy _ _ | .doubled _ _ => [.badSlot, .slotBusy, .dimRange, .allocFail]
  | .drawimage _ _ | .drawtransparent _ _ => [.badSlot, .alias_, .depthMismatch]
  | .drawcore _ _ => [.badSlot, .alias_]

/-- Every command's checks stand in the order of rule R193. -/
theorem commandFaults_ordered (i : Instr) : (commandFaults i).Pairwise fun c c' => priority c < priority c' := by
  cases i <;> simp [commandFaults, priority]

theorem badSlot_mem_commandFaults {i : Instr} {r : SlotIx} (h : r ∈ existingSlots i) : .badSlot ∈ commandFaults i := by
  cases i with
  | nop | alloc | xlut => cases h
  | _ => exact List.mem_cons_self

theorem slotBusy_mem_commandFaults {i : Instr} {r : SlotIx} (h : createdSlot i = some r) :
    .slotBusy ∈ commandFaults i := by
  cases i with
  | alloc | clone | doubledx | doubledy | doubled => simp [commandFaults]
  | _ => cases h

theorem allocFail_mem_commandFaults {i : Instr} {s : State} {q : Int × Int × Depth} (h : createdDims i s = some q) :
    .allocFail ∈ commandFaults i := by
  cases i with
  | alloc | clone | doubledx | doubledy | doubled => simp [commandFaults]
  | _ => cases h

theorem dimRange_mem_commandFaults {i : Instr} {s : State} {q : Int × Int × Depth} (h : createdDims i s = some q)
    (hclone : ∀ rd rs, i ≠ .clone rd rs) : .dimRange ∈ commandFaults i := by
  cases i with
  | alloc | doubledx | doubledy | doubled => simp [commandFaults]
  | clone rd rs => exact absurd rfl (hclone rd rs)
  | _ => cases h

/-- A fault whose condition holds is one of the command's faults: rules R183 to R191 name no command beside those whose
"Faults" entry has the fault. -/
theorem mem_commandFaults {c : Cause} {i : Instr} {s : State} (h : faultArises c i s) : c ∈ commandFaults i := by
  cases c with
  | illegalCmd => exact h.elim
  | badSlot => obtain ⟨r, hr, -⟩ := h; exact badSlot_mem_commandFaults hr
  | slotBusy => obtain ⟨r, hr, -⟩ := h; exact slotBusy_mem_commandFaults hr
  | alias_ => obtain ⟨r, rfl | rfl | rfl⟩ := h <;> simp [commandFaults]
  | dimMismatch => obtain ⟨rd, rs, b, o, rfl, -⟩ := h; simp [commandFaults]
  | depthMismatch => obtain ⟨rd, rs, b, o, rfl | rfl, -⟩ := h <;> simp [commandFaults]
  | dimRange =>
    rcases h with ⟨rd, dc, rfl, -⟩ | ⟨hclone, w, h, d, hdims, -⟩
    · simp [commandFaults]
    · exact dimRange_mem_commandFaults hdims hclone
  | coordRange => obtain ⟨rd, b, rfl | rfl, -⟩ := h <;> simp [commandFaults]
  | offsetRange => obtain ⟨rd, b, rfl | rfl, -⟩ := h <;> simp [commandFaults]
  | allocFail => obtain ⟨w, h, d, c, hdims, -⟩ := h; exact allocFail_mem_commandFaults hdims

/-! ### Going through the checks in order -/

/-- `t` has the fault record of `s`. -/
structure State.RecordKept (s t : State) : Prop where
  fault : t.fault = s.fault
  cause : t.cause = s.cause
  fcmd : t.fcmd = s.fcmd

/-- `a` is the result of the command `i` in `s` when the faults still to be checked are those of the list, in its order:
the first that arises is taken, and with none left the command completes. -/
inductive ChecksInOrder (i : Instr) (s : State) : List Cause → Result → Prop where
  | completed {t : State} (hkept : s.RecordKept t) : ChecksInOrder i s [] (.next t)
  | faulted {c : Cause} {cs : List Cause} (harises : faultArises c i s) :
      ChecksInOrder i s (c :: cs) (.next (s.takeFault c))
  | passed {c : Cause} {cs : List Cause} {a : Result} (hnot : ¬faultArises c i s) (hrest : ChecksInOrder i s cs a) :
      ChecksInOrder i s (c :: cs) a

namespace ChecksInOrder

variable {i : Instr} {s : State} {cs : List Cause}

/-- Where the checks stand in the order of rule R193, the first fault of that order is the one taken. -/
theorem eq_of_first {a : Result} {c : Cause} (h : ChecksInOrder i s cs a)
    (hord : cs.Pairwise fun c c' => priority c < priority c') (hmem : c ∈ cs) (harises : faultArises c i s)
    (hfirst : ∀ c', priority c' < priority c → ¬faultArises c' i s) : a = .next (s.takeFault c) := by
  induction h with
  | completed hkept => cases hmem
  | faulted harises' =>
    rcases List.mem_cons.mp hmem with rfl | hmem
    · rfl
    · exact absurd harises' (hfirst _ (List.rel_of_pairwise_cons hord hmem))
  | passed hnot hrest ih =>
    rcases List.mem_cons.mp hmem with rfl | hmem
    · exact absurd harises hnot
    · exact ih hord.of_cons hmem

theorem completed_of_none {a : Result} (h : ChecksInOrder i s cs a) (hnone : ∀ c, ¬faultArises c i s) :
    ∃ t, a = .next t ∧ s.RecordKept t := by
  induction h with
  | completed hkept => exact ⟨_, rfl, hkept⟩
  | faulted harises => exact absurd harises (hnone _)
  | passed hnot hrest ih => exact ih

theorem completed_or_faulted {a : Result} {t : State} (h : ChecksInOrder i s cs a) (ha : a = .next t) :
    s.RecordKept t ∨ ∃ c, faultArises c i s ∧ t = s.takeFault c := by
  induction h with
  | completed hkept => cases ha; exact .inl hkept
  | faulted harises => cases ha; exact .inr ⟨_, harises, rfl⟩
  | passed hnot hrest ih => exact ih ha

/-! One rule for each shared operation. -/

theorem setSlot (r : SlotIx) (b : Option Buffer) : ChecksInOrder i s [] (.next (s.setSlot r b)) :=
  completed ⟨rfl, rfl, rfl⟩

theorem paint (r : SlotIx) (b : Buffer) (ws : List PixelWrite) : ChecksInOrder i s [] (paint r b ws s) :=
  setSlot r _

theorem answer (v : Nat) : ChecksInOrder i s [] (answer v s) :=
  completed ⟨rfl, rfl, rfl⟩

theorem check {p : Bool} {c : Cause} {go : Result} (hp : p = true ↔ faultArises c i s)
    (hgo : ¬faultArises c i s → ChecksInOrder i s cs go) : ChecksInOrder i s (c :: cs) (check p c s go) := by
  cases p with
  | true => exact faulted (hp.mp rfl)
  | false =>
    have hnot : ¬faultArises c i s := fun h => Bool.false_ne_true (hp.mpr h)
    exact passed hnot (hgo hnot)

theorem needBuffer {r : SlotIx} {go : Buffer → Result} (hr : existingSlots i = [r])
    (hgo : ∀ b, s.slot r = some b → ChecksInOrder i s cs (go b)) :
    ChecksInOrder i s (.badSlot :: cs) (needBuffer r s go) := by
  have hiff : faultArises .badSlot i s ↔ s.slot r = none := by simp [faultArises, hr]
  cases hb : s.slot r with
  | none => rw [needBuffer_none r s go hb]; exact faulted (hiff.mpr hb)
  | some b => rw [needBuffer_some r s go b hb]; exact passed (by simp [hiff, hb]) (hgo b hb)

theorem needTwo {rd rs : SlotIx} {go : Buffer → Buffer → Result} (hr : existingSlots i = [rd, rs])
    (hgo : ∀ b o, s.slot rd = some b → s.slot rs = some o → ChecksInOrder i s cs (go b o)) :
    ChecksInOrder i s (.badSlot :: cs) (needTwo rd rs s go) := by
  have hiff : faultArises .badSlot i s ↔ s.slot rd = none ∨ s.slot rs = none := by simp [faultArises, hr]
  cases hb : s.slot rd with
  | none => rw [needTwo_none_left rd rs s go hb]; exact faulted (hiff.mpr (.inl hb))
  | some b =>
    cases ho : s.slot rs with
    | none => rw [needTwo_none_right rd rs s go ho]; exact faulted (hiff.mpr (.inr ho))
    | some o => rw [needTwo_some rd rs s go b o hb ho]; exact passed (by simp [hiff, hb, ho]) (hgo b o hb ho)

theorem needFree {r : SlotIx} {go : Result} (hr : createdSlot i = some r)
    (hgo : ChecksInOrder i s cs go) : ChecksInOrder i s (.slotBusy :: cs) (needFree r s go) := by
  have hiff : faultArises .slotBusy i s ↔ s.slot r ≠ none := by simp [faultArises, hr]
  cases hb : s.slot r with
  | none => rw [needFree_none r s go hb]; exact passed (by simp [hiff, hb]) hgo
  | some b => rw [needFree_some r s go b hb]; exact faulted (by simp [hiff, hb])

/-- The condition of `AllocFail` is on the dimensions the new buffer is to have, the check on the buffer's own length
(rule R191). -/
theorem install {r : SlotIx} {b : Buffer} {w h : Int} {d : Depth} (hdims : createdDims i s = some (w, h, d))
    (hlen : b.len = dataLen w.toNat h.toNat d) : ChecksInOrder i s [.allocFail] (install r b s) := by
  refine check ?_ fun _ => setSlot r (some b)
  rw [Bool.not_eq_true', State.fits_eq_false, hlen]
  simp [faultArises, hdims]

end ChecksInOrder

/-! ### The conditions of the faults, command by command -/

section
variable {s : State} {rd rs : SlotIx} {b o : Buffer}

theorem alias_iff {i : Instr} (hi : i = .drawimage rd rs ∨ i = .drawtransparent rd rs ∨ i = .drawcore rd rs) :
    (rd == rs) = true ↔ faultArises .alias_ i s := by
  rw [beq_iff_eq]
  rcases hi with rfl | rfl | rfl <;> simp [faultArises, eq_comm]

theorem dimMismatch_iff (hb : s.slot rd = some b) (ho : s.slot rs = some o) :
    dimsDiffer b o = true ↔ faultArises .dimMismatch (.copyfrom rd rs) s := by
  rw [← Bool.not_eq_false, dimsDiffer_eq_false]
  simp [faultArises, hb, ho]

theorem depthMismatch_iff {i : Instr} (hi : i = .drawimage rd rs ∨ i = .drawtransparent rd rs)
    (hb : s.slot rd = some b) (ho : s.slot rs = some o) :
    strictMismatch s b o = true ↔ faultArises .depthMismatch i s := by
  rw [strictMismatch_eq_true]
  rcases hi with rfl | rfl <;> simp [faultArises, hb, ho]

theorem coordRange_iff {i : Instr} (hi : i = .getpixel rd ∨ i = .setpixel rd) (hb : s.slot rd = some b) :
    (!b.inBounds s.opX s.opY) = true ↔ faultArises .coordRange i s := by
  rw [Bool.not_eq_true', ← Bool.not_eq_true, b.inBounds_iff]
  rcases hi with rfl | rfl <;> simp [faultArises, hb]

theorem offsetRange_iff {i : Instr} (hi : i = .ldb rd ∨ i = .stb rd) (hb : s.slot rd = some b) :
    offsetOutOfRange b s.opX = true ↔ faultArises .offsetRange i s := by
  rw [← Bool.not_eq_false, offsetOutOfRange_eq_false]
  rcases hi with rfl | rfl <;> simp [faultArises, hb]

/-- ALLOC's lower and upper bounds stand in the two halves of the condition (rule R188). -/
theorem dimRange_alloc_iff {dc : Depth} :
    dimsOutOfRange s.opW s.opH = true ↔ faultArises .dimRange (.alloc rd dc) s := by
  have harises : faultArises .dimRange (.alloc rd dc) s ↔
      (s.opW < 1 ∨ s.opH < 1) ∨ 65535 < s.opW ∨ 65535 < s.opH := by
    simp [faultArises, createdDims, Config.maxDim]
  rw [← Bool.not_eq_false, dimsOutOfRange_eq_false, harises]
  omega

section
variable {i : Instr} {kx ky : Nat}
  (hi : i = .doubledx rd rs ∧ kx = 2 ∧ ky = 1 ∨ i = .doubledy rd rs ∧ kx = 1 ∧ ky = 2 ∨
    i = .doubled rd rs ∧ kx = 2 ∧ ky = 2)
include hi

theorem createdDims_of_doubling (hb : s.slot rs = some b) :
    createdDims i s = some (((kx * b.w : Nat) : Int), ((ky * b.h : Nat) : Int), b.depth) := by
  rcases hi with ⟨rfl, rfl, rfl⟩ | ⟨rfl, rfl, rfl⟩ | ⟨rfl, rfl, rfl⟩ <;> simp [createdDims, hb]

theorem dimRange_doubling_iff (hb : s.slot rs = some b) :
    (decide (Config.maxDim < kx * b.w) || decide (Config.maxDim < ky * b.h)) = true ↔ faultArises .dimRange i s := by
  have hnot : (∀ rd' dc, i ≠ .alloc rd' dc) ∧ ∀ rd' rs', i ≠ .clone rd' rs' := by
    rcases hi with ⟨rfl, -⟩ | ⟨rfl, -⟩ | ⟨rfl, -⟩ <;> simp
  have harises : faultArises .dimRange i s ↔ 65535 < ((kx * b.w : Nat) : Int) ∨ 65535 < ((ky * b.h : Nat) : Int) := by
    simp [faultArises, hnot, createdDims_of_doubling hi hb, Config.maxDim]
  rw [doubledDims_iff, harises]
  omega

theorem checksInOrder_doubling :
    ChecksInOrder i s [.badSlot, .slotBusy, .dimRange, .allocFail] (doubleInto rd rs kx ky s) := by
  have hslots : existingSlots i = [rs] ∧ createdSlot i = some rd := by
    rcases hi with ⟨rfl, -⟩ | ⟨rfl, -⟩ | ⟨rfl, -⟩ <;> exact ⟨rfl, rfl⟩
  obtain ⟨hsource, htarget⟩ := hslots
  refine .needBuffer hsource fun b hb => .needFree htarget (.check (dimRange_doubling_iff hi hb) fun hdims =>
    .install (createdDims_of_doubling hi hb) ?_)
  rw [← dimRange_doubling_iff hi hb, doubledDims_iff] at hdims
  exact doubledBuffer_len (by omega) (by omega)

end
end

/-! ### The commands -/

/-- A command that paints the buffer of its one slot has the fault `BadSlot` alone. -/
theorem checksInOrder_paint {i : Instr} {rd : SlotIx} {ws : Buffer → List PixelWrite} (s : State)
    (hr : existingSlots i = [rd]) :
    ChecksInOrder i s [.badSlot] (needBuffer rd s fun b => paint rd b (ws b) s) :=
  .needBuffer hr fun _ _ => .paint rd _ _

/-- A command that answers a number about its one slot has the fault `BadSlot` alone. -/
theorem checksInOrder_answer {i : Instr} {rd : SlotIx} {v : Buffer → Nat} (s : State) (hr : existingSlots i = [rd]) :
    ChecksInOrder i s [.badSlot] (needBuffer rd s fun b => answer (v b) s) :=
  .needBuffer hr fun _ _ => .answer _

theorem checksInOrder_alloc (rd : SlotIx) (dc : Depth) (s : State) :
    ChecksInOrder (.alloc rd dc) s [.slotBusy, .dimRange, .allocFail] (execAlloc rd dc s) := by
  refine .needFree rfl (.check dimRange_alloc_iff fun hdims => .install rfl ?_)
  obtain ⟨-, hw, -, hh⟩ := dimsOutOfRange_eq_false.mp (Bool.eq_false_iff.mpr (mt dimRange_alloc_iff.mp hdims))
  exact Buffer.zeroed_len _ _ dc (by omega) (by omega)

theorem checksInOrder_clone (rd rs : SlotIx) (s : State) :
    ChecksInOrder (.clone rd rs) s [.badSlot, .slotBusy, .allocFail] (execClone rd rs s) :=
  .needBuffer rfl fun b hb => .needFree rfl
    (.install (w := b.w) (h := b.h) (d := b.depth) (by simp [createdDims, hb]) rfl)

/-- DRAWIMAGE and DRAWTRANSPARENT: the checks of rule R160. -/
theorem checksInOrder_strictDraw {i : Instr} {rd rs : SlotIx} {ws : Buffer → List PixelWrite}
    (hi : i = .drawimage rd rs ∨ i = .drawtransparent rd rs) (s : State) :
    ChecksInOrder i s [.badSlot, .alias_, .depthMismatch] (drawInto rd rs (strictMismatch s) ws s) := by
  have hr : existingSlots i = [rd, rs] := by rcases hi with rfl | rfl <;> rfl
  exact .needTwo hr fun b o hb ho =>
    .check (alias_iff (hi.imp_right .inl)) fun _ => .check (depthMismatch_iff hi hb ho) fun _ => .paint rd _ _

/-- Every command goes through its faults in order, takes the first that arises, and else completes. -/
theorem exec_checksInOrder (i : Instr) (s : State) : ChecksInOrder i s (commandFaults i) (exec i s) := by
  cases i with
  | nop => exact .completed ⟨rfl, rfl, rfl⟩
  | alloc rd dc => exact checksInOrder_alloc rd dc s
  | free rd => exact .needBuffer rfl fun _ _ => .setSlot rd none
  | ldb rd => exact .needBuffer rfl fun _ hb => .check (offsetRange_iff (.inl rfl) hb) fun _ => .answer _
  | stb rd => exact .needBuffer rfl fun _ hb => .check (offsetRange_iff (.inr rfl) hb) fun _ => .setSlot rd _
  | xlut dc => exact .answer _
  | getpixel rd => exact .needBuffer rfl fun _ hb => .check (coordRange_iff (.inl rfl) hb) fun _ => .answer _
  | setpixel rd => exact .needBuffer rfl fun _ hb => .check (coordRange_iff (.inr rfl) hb) fun _ => .setSlot rd _
  | width | height | ismono => exact checksInOrder_answer s rfl
  | clone rd rs => exact checksInOrder_clone rd rs s
  | copyfrom rd rs => exact .needTwo rfl fun _ _ hb ho => .check (dimMismatch_iff hb ho) fun _ => .setSlot rd _
  | fill | fillrect | flipx | flipy | scroll | replace => exact checksInOrder_paint s rfl
  | doubledx rd rs => exact checksInOrder_doubling (.inl ⟨rfl, rfl, rfl⟩)
  | doubledy rd rs => exact checksInOrder_doubling (.inr (.inl ⟨rfl, rfl, rfl⟩))
  | doubled rd rs => exact checksInOrder_doubling (.inr (.inr ⟨rfl, rfl, rfl⟩))
  | drawimage rd rs => exact checksInOrder_strictDraw (.inl rfl) s
  | drawtransparent rd rs => exact checksInOrder_strictDraw (.inr rfl) s
  | overlaps rd rs => exact .needTwo rfl fun _ _ _ _ => .answer _
  | drawcore rd rs => exact .needTwo rfl fun _ _ _ _ => .check (alias_iff (.inr (.inr rfl))) fun _ => .paint rd _ _

/-- Settles O22: the fault is one of the command's own, whose checks stand in the order of rule R193. -/
theorem theFirstConditionInOrderIsTheFaultTaken : Obligations.TheFirstConditionInOrderIsTheFaultTaken := by
  unfold Obligations.TheFirstConditionInOrderIsTheFaultTaken
  intro i s c harises hfirst
  exact (exec_checksInOrder i s).eq_of_first (commandFaults_ordered i) (mem_commandFaults harises) harises hfirst

/-- Settles O23: every check is passed, and what completes keeps the fault record. -/
theorem withoutAConditionNoFaultIsTaken : Obligations.WithoutAConditionNoFaultIsTaken := by
  unfold Obligations.WithoutAConditionNoFaultIsTaken
  intro i s hnone
  obtain ⟨t, ht, hkept⟩ := (exec_checksInOrder i s).completed_of_none hnone
  exact ⟨t, ht, hkept.fault, hkept.cause, hkept.fcmd⟩

/-- Settles O24: a command that completes would have left `STATUS.FAULT` 0. -/
theorem faultsArePrecise : Obligations.FaultsArePrecise := by
  unfold Obligations.FaultsArePrecise
  intro i s t hs ht hfault
  rcases (exec_checksInOrder i s).completed_or_faulted ht with hkept | hfaulted
  · exact absurd (hkept.fault.symm.trans hfault) (by simp [hs])
  · exact hfaulted

/-- Settles O21: both sides are the definitions, case by case of rule R181's table. -/
theorem takingAFaultRecordsItsCode : Obligations.TakingAFaultRecordsItsCode := by
  unfold Obligations.TakingAFaultRecordsItsCode
  intro s c
  refine ⟨rfl, ?_⟩
  cases c <;> rfl

/-! ### The halted engine -/

/-- In the halted engine an operation of the host other than reset keeps the fault record, `CMD` and the slots: neither
a command nor an illegal word is taken, and no other operation writes them (rules R195, R196). -/
theorem HostEffect.kept_of_halted {op : HostOp} {s t : State} (h : HostEffect op s t) (hf : s.fault = true)
    (hop : op ≠ .rst) : s.RecordKept t ∧ t.cmd = s.cmd ∧ ∀ r, t.slot r = s.slot r := by
  cases h with
  | ignored h | ctrl v h | operand i v h | read r h => subst h; exact ⟨⟨rfl, rfl, rfl⟩, rfl, fun _ => rfl⟩
  | illegal w e hf' hd h => exact absurd (hf.symm.trans hf') (by decide)
  | command w i hf' hd h => exact absurd (hf.symm.trans hf') (by decide)
  | reset hrst h => exact absurd hrst hop

/-- Settles O14: the step is idle, or an operation of the host in the halted engine. -/
theorem onlyResetLeavesTheHaltedState : Obligations.OnlyResetLeavesTheHaltedState := by
  unfold Obligations.OnlyResetLeavesTheHaltedState
  intro s t hf hnext hstep
  rcases step_effect hstep with ⟨-, rfl⟩ | ⟨op, hop, heffect⟩
  · exact ⟨hf, rfl, rfl, rfl, fun _ => rfl⟩
  · have hrst : op ≠ .rst := fun heq => hnext (heq ▸ hop)
    obtain ⟨⟨hfault, hcause, hfcmd⟩, hcmd, hslots⟩ := heffect.kept_of_halted hf hrst
    exact ⟨hfault.trans hf, hcause, hfcmd, hcmd, hslots⟩

/-- Settles O15: a write of `CMD` is discarded by `writeCmd`, and the other accesses do not ask for `STATUS.FAULT`. -/
theorem theHaltedEngineDiscardsCommands : Obligations.TheHaltedEngineDiscardsCommands := by
  unfold Obligations.TheHaltedEngineDiscardsCommands
  intro s hf
  refine ⟨fun w h => ?_, fun i v h => step_of_regWrite h, fun v h => ?_, fun r h => ⟨_, step_of_regRead h⟩⟩
  · exact (step_of_commandWrite h).trans (writeCmd_of_fault w s.advance hf)
  · exact step_of_regWrite (r := .ctrl) h

end Sys2Proof.Machine
end

section
/-! PROOF. Reset (`70_reset_and_hazards.md` rule R211), and that every command terminates (rule R222). -/

namespace Sys2Proof.Machine

/-- The operand registers after reset, register by register (rule R37). -/
@[simp] theorem State.applyReset_regs_get (s : State) (i : Fin 8) : s.applyReset.regs.get i = 0#32 := by
  rw [State.applyReset_regs]
  revert i
  decide

theorem step_of_reset {s : State} (h : s.nextOp = some .rst) : step s = .next s.advance.applyReset :=
  step_of_nextOp h

/-- Settles O11: the step answers the reset state with the host's side and the capacity kept. -/
theorem resetClearsTheEngine : Obligations.ResetClearsTheEngine := by
  unfold Obligations.ResetClearsTheEngine
  intro s hop
  exact ⟨s.advance.applyReset, step_of_reset hop, s.advance.applyReset_regs_get, rfl, rfl, rfl, rfl, rfl,
    s.advance.slot_applyReset, rfl, rfl, rfl, rfl⟩

/-- Settles O16: no check of a command stops the model, it takes its fault or goes on (`exec_answers`). -/
theorem everyCommandTerminates : Obligations.EveryCommandTerminates := by
  unfold Obligations.EveryCommandTerminates
  exact exec_answers

end Sys2Proof.Machine
end
